-- ==== Sys2Proof/Word.lean ====
section
/-! DEFINITION. The word types of the block: bytes of the record, the 16-bit value operand and length fields, and the
32-bit command and register words (10_state.md R29, 20_memory.md R60, 30_encoding.md R90). -/

namespace Sys2Proof

/-- One byte of a record, a buffer or a store (20_memory.md R60, R65). -/
abbrev Byte := BitVec 8

/-- A 16-bit field: SET's value operand, IN_LEN.LEN, OUT_LEN.LEN, ERR_VALUE.VALUE (30_encoding.md R91, 10_state.md R32). -/
abbrev Half := BitVec 16

/-- A command word or a register word (10_state.md R29, 30_encoding.md R90). -/
abbrev Word := BitVec 32

end Sys2Proof
end

