-- ==== Sys2Proof/Syntax.lean ====
section
/-! DEFINITION. The commands of the block, the controls they name and the two record formats (00_scope.md R14,
10_state.md R22, 30_encoding.md R91, R93). -/

namespace Sys2Proof

/-- A voice index, the V field of a command word: every value 0..3 names a voice (30_encoding.md R94). -/
abbrev Voice := BitVec 2

/-- The 11 controls of a voice, in the order of their identifiers c = 0..10 (10_state.md R22). -/
inductive Control where
  | algo | mode | vcf
  | tune | param1 | param2 | fxSend | decay | cutoff | drive | level
  deriving DecidableEq, Repr

/-- The kind of a control (10_state.md R22). -/
inductive ControlKind where
  | toggle | potentiometer
  deriving DecidableEq, Repr

/-- The two record formats, FORMAT_1 and FORMAT_2 (00_scope.md glossary; 10_state.md R25). -/
inductive Format where
  | format1 | format2
  deriving DecidableEq, Repr

/-- A host command (30_encoding.md R93), one constructor for each row of the opcode table.
The operands are the fields of the word: `v` the voice index V, `c` the control identifier C, `imm` the 16-bit IMM. -/
inductive Instr where
  /-- DETECT: classify the input buffer (40_format_detector.md R125). -/
  | detect
  /-- LOAD: decode the input buffer into the kit state (42_kit_codec.md R170). -/
  | load
  /-- SAVE: encode the kit state into the output buffer (42_kit_codec.md R175). -/
  | save
  /-- GET v, c: read one control (41_voice_codec.md R150). -/
  | get (v : Voice) (c : BitVec 4)
  /-- SET v, c, val: write one control, range-checked (41_voice_codec.md R152). -/
  | set (v : Voice) (c : BitVec 4) (imm : Half)
  deriving DecidableEq, Repr

/-- Why a command word is illegal: the four grounds of 30_encoding.md R95, in the order the decoder meets them. -/
inductive DecodeError where
  /-- RSV is not 0. -/
  | reservedField
  /-- OP is 0x0 or in 0x6..0xF. -/
  | reservedOpcode
  /-- A field the opcode does not use is not 0 (R92). -/
  | unusedField
  /-- OP is GET or SET and C is 11..15. -/
  | controlField
  deriving DecidableEq, Repr

end Sys2Proof
end

