-- ==== Sys2Proof/WellFormed.lean ====
section
/-! DEFINITION. Which terms of Instr are commands: the control identifier of GET and SET is 0..10 (30_encoding.md R94, R95). -/

namespace Sys2Proof

/-- The check of a command's operands: C <= 10 where C is used (opcode_table.json, constraints; 30_encoding.md R95). -/
def Instr.wellFormed : Instr → Bool
  | .detect => true
  | .load => true
  | .save => true
  | .get _ c => decide (c.toNat ≤ 10)
  | .set _ c _ => decide (c.toNat ≤ 10)

/-- `i` is a command some word encodes. -/
abbrev Instr.WellFormed (i : Instr) : Prop := i.wellFormed = true

end Sys2Proof
end

