-- ==== Sys2Proof/Decode.lean ====
section
/-! DEFINITION. The decoder of command words, total on every 32-bit word (30_encoding.md R91 to R97), and after it the
encoder (R91, R100). -/

namespace Sys2Proof

/-! ### The fields of CMD32 (30_encoding.md R91) -/

/-- OP, bits [3:0]. -/
def fieldOP (w : Word) : BitVec 4 := w.extractLsb' 0 4
/-- V, bits [5:4]. -/
def fieldV (w : Word) : Voice := w.extractLsb' 4 2
/-- C, bits [9:6]. -/
def fieldC (w : Word) : BitVec 4 := w.extractLsb' 6 4
/-- RSV, bits [15:10]. -/
def fieldRSV (w : Word) : BitVec 6 := w.extractLsb' 10 6
/-- IMM, bits [31:16]. -/
def fieldIMM (w : Word) : Half := w.extractLsb' 16 16

/-- DETECT, LOAD and SAVE use no operand field: V, C and IMM must be 0 (30_encoding.md R92). -/
def decodeNoOperand (w : Word) (i : Instr) : Except DecodeError Instr :=
  if fieldV w = 0 ∧ fieldC w = 0 ∧ fieldIMM w = 0 then .ok i else .error .unusedField

/-- GET uses V and C: IMM must be 0, and C names a control (30_encoding.md R92, R95). -/
def decodeGet (w : Word) : Except DecodeError Instr :=
  if fieldIMM w ≠ 0 then .error .unusedField
  else if (fieldC w).toNat ≤ 10 then .ok (.get (fieldV w) (fieldC w)) else .error .controlField

/-- SET uses V, C and IMM; C names a control (30_encoding.md R92, R95). -/
def decodeSet (w : Word) : Except DecodeError Instr :=
  if (fieldC w).toNat ≤ 10 then .ok (.set (fieldV w) (fieldC w) (fieldIMM w)) else .error .controlField

/-- The decoder (30_encoding.md R97): RSV first, then the opcode map of R93. -/
def decode (w : Word) : Except DecodeError Instr :=
  if fieldRSV w ≠ 0 then .error .reservedField
  else
    match (fieldOP w).toNat with
    | 1 => decodeNoOperand w .detect
    | 2 => decodeNoOperand w .load
    | 3 => decodeNoOperand w .save
    | 4 => decodeGet w
    | 5 => decodeSet w
    | _ => .error .reservedOpcode

/-! ### The encoder -/

/-- A CMD32 word from its fields, RSV = 0 (30_encoding.md R91). -/
def assemble (op : BitVec 4) (v : Voice) (c : BitVec 4) (imm : Half) : Word :=
  imm ++ (0 : BitVec 6) ++ c ++ v ++ op

/-- The word of a command (30_encoding.md R93, R100): `0x4 | v<<4 | c<<6` for GET, `0x5 | v<<4 | c<<6 | IMM<<16` for SET. -/
def encode : Instr → Word
  | .detect => assemble 0x1 0 0 0
  | .load => assemble 0x2 0 0 0
  | .save => assemble 0x3 0 0 0
  | .get v c => assemble 0x4 v c 0
  | .set v c imm => assemble 0x5 v c imm

/-- What the decoder reads from an opcode-table word of `nbits` bits: bits at and above `nbits` are 0, and a number of
more than 32 bits is no command word (30_encoding.md R90). -/
def decodeTableWord (nbits w : Nat) : Option Instr :=
  if w % 2 ^ nbits < 2 ^ 32 then
    match decode (BitVec.ofNat 32 (w % 2 ^ nbits)) with
    | .ok i => some i
    | .error _ => none
  else none

end Sys2Proof
end

