-- ==== Sys2Proof/Config.lean ====
section
/-! DEFINITION. The implementation parameters of the block and their legal values (00_scope.md R9, 20_memory.md R70).
A machine carries its parameters in State.cfg, and no step changes them (log 3). -/

namespace Sys2Proof

/-- The parameter CTRL_OFF: the relative byte offset of each control in every voice window (00_scope.md R9, 41_voice_codec.md R144). -/
structure ControlOffsets where
  algo : Nat
  mode : Nat
  vcf : Nat
  tune : Nat
  param1 : Nat
  param2 : Nat
  fxSend : Nat
  decay : Nat
  cutoff : Nat
  drive : Nat
  level : Nat
  deriving DecidableEq, Repr

/-- The offsets in the order of the control identifiers 0..10. -/
def ControlOffsets.toList (t : ControlOffsets) : List Nat :=
  [t.algo, t.mode, t.vcf, t.tune, t.param1, t.param2, t.fxSend, t.decay, t.cutoff, t.drive, t.level]

/-- The parameters of 00_scope.md R9, and HOST_BASE of 20_memory.md R70. -/
structure Params where
  /-- HDR_LEN_F1: header length under FORMAT_1. -/
  hdrLenF1 : Nat
  /-- HDR_LEN_F2: header length under FORMAT_2. -/
  hdrLenF2 : Nat
  /-- CTRL_OFF. -/
  ctrlOff : ControlOffsets
  /-- IN_CAP: capacity of the input buffer in bytes. -/
  inCap : Nat
  /-- OUT_CAP: capacity of the output buffer in bytes. -/
  outCap : Nat
  /-- HOST_BASE: the bus address of the block's window, chosen by the platform. -/
  hostBase : Nat
  deriving DecidableEq, Repr

/-- The legal values of 00_scope.md R9: header lengths in 47..59 with HDR_LEN_F2 != HDR_LEN_F1 - 2; control offsets pairwise
distinct, each in {0..3} or {8..25}; capacities from the longer record, HDR_LEN_F1 + 108 or HDR_LEN_F2 + 110, to 256. -/
def Params.legal (p : Params) : Bool :=
  decide (47 ≤ p.hdrLenF1 ∧ p.hdrLenF1 ≤ 59 ∧ 47 ≤ p.hdrLenF2 ∧ p.hdrLenF2 ≤ 59 ∧ p.hdrLenF2 + 2 ≠ p.hdrLenF1)
    && decide p.ctrlOff.toList.Nodup
    && p.ctrlOff.toList.all (fun o => decide (o ≤ 3 ∨ (8 ≤ o ∧ o ≤ 25)))
    && decide (p.hdrLenF1 + 108 ≤ p.inCap ∧ p.hdrLenF2 + 110 ≤ p.inCap ∧ p.inCap ≤ 256)
    && decide (p.hdrLenF1 + 108 ≤ p.outCap ∧ p.hdrLenF2 + 110 ≤ p.outCap ∧ p.outCap ≤ 256)

/-- A legal choice of the parameters: the data and the fact that it is legal (log 3). -/
structure Config where
  p : Params
  legal : p.legal = true
  deriving DecidableEq, Repr

/-- This spec's values (00_scope.md R9).
DESIGN CHOICE (log 3), unsafe: HOST_BASE = 0, to which the spec gives no value. -/
def Params.spec : Params :=
  { hdrLenF1 := 57
    hdrLenF2 := 59
    ctrlOff := { algo := 0, mode := 1, vcf := 2, tune := 3, param1 := 8, param2 := 9, fxSend := 10, decay := 11,
                 cutoff := 12, drive := 13, level := 14 }
    inCap := 256
    outCap := 256
    hostBase := 0 }

/-- The machine with this spec's parameter values. -/
def Config.spec : Config := { p := Params.spec, legal := by decide }

end Sys2Proof
end

