-- ==== Sys2Proof/Machine/State.lean ====
section
/-! DEFINITION. Everything the spec gives the machine to hold (10_state.md R20 to R42, 20_memory.md R60), the host's
accesses still to come and the values its reads returned (70_reset_and_hazards.md R241), the reasons a step can stop, and
the state after reset. -/

namespace Sys2Proof.Machine

/-- A byte store: (index, byte) pairs, indices strictly rising, no entry equal to what an unlisted index reads as
(Memory.unlisted in Machine/Ops.lean). IN, OUT, VS and HS are byte stores. -/
abbrev Memory := List Host.Cell

/-- The values of STATUS.ERR (60_exceptions.md R200); the codes 7..15 are never written and have no constructor (log 12). -/
inductive ErrCode where
  | ok | malformedRecord | markerMismatch | outOfRange | sourceUnavailable | illegalCommand | noKit
  deriving DecidableEq, Repr

/-- An error a command raises, with the diagnostic it names (60_exceptions.md R200 to R208). -/
inductive EngineError where
  /-- The length stage of detection matched no admissible total; carries IN_LEN[15:0] (R202). -/
  | malformedRecord (len : Half)
  /-- The marker of voice `v` failed; carries the four bytes found, packed as ERR_FOUND packs them (R204). -/
  | markerMismatch (v : Voice) (found : Word)
  /-- A value outside the range of control `c` of voice `v` (R205). -/
  | outOfRange (v : Voice) (c : BitVec 4) (value : Half)
  /-- The host reported a storage failure through SRC_ERR (R203). -/
  | sourceUnavailable
  /-- The command word is illegal (R201). -/
  | illegalCommand
  /-- No kit is loaded (R208). -/
  | noKit
  deriving DecidableEq, Repr

/-- The nine host registers (10_state.md R29). -/
inductive Reg where
  | cmd | status | result | inLen | outLen | srcCtrl | errInfo | errFound | errValue
  deriving DecidableEq, Repr

/-- What a window offset names (20_memory.md R70). -/
inductive Region where
  /-- Offsets 0x000..0x023 at a multiple of 4: a register. -/
  | register (r : Reg)
  /-- Offsets 0x000..0x023 not at a multiple of 4: inside a register. -/
  | insideRegister
  /-- Offset 0x100 + a, a < IN_CAP. -/
  | inByte (a : Nat)
  /-- Offset 0x200 + a, a < OUT_CAP. -/
  | outByte (a : Nat)
  /-- A reserved offset. -/
  | reserved
  /-- No offset of the window. -/
  | outside
  deriving DecidableEq, Repr

/-- The contents the stores happen to hold when reset is over: any bytes at all, given by the event (10_state.md R41,
93_implementation_defined.md 1 to 3; log 5). A byte the lists do not reach is 0, a byte beyond a store's size is dropped. -/
structure PowerUp where
  inBytes : List Byte
  outBytes : List Byte
  vsBytes : List Byte
  hsBytes : List Byte
  deriving DecidableEq, Repr

/-- What can happen at the block's port: a host access at a bus address (30_encoding.md R101), or reset (R230). -/
inductive Event where
  /-- WR32: a 32-bit write. -/
  | wr32 (addr : Nat) (w : Word)
  /-- RD32: a 32-bit read. -/
  | rd32 (addr : Nat)
  /-- WR8: an 8-bit write. -/
  | wr8 (addr : Nat) (b : Byte)
  /-- RD8: an 8-bit read. -/
  | rd8 (addr : Nat)
  /-- A read or write of any other width, `bits` bits wide (20_memory.md R66, R73; log 6). -/
  | otherWidth (bits addr : Nat)
  /-- Reset, delivered by the platform between host accesses, and what the stores hold after it (R230; log 5). -/
  | reset (draw : PowerUp)
  deriving DecidableEq, Repr

/-- A value a host read returned (70_reset_and_hazards.md R241). -/
inductive HostRead where
  | word (w : Word)
  | byte (b : Byte)
  deriving DecidableEq, Repr

/-- The machine. -/
structure State where
  /-- The implementation parameters (00_scope.md R9); no step changes them (log 3). -/
  cfg : Config
  /-- CMD: the last word the host wrote (R29). -/
  cmd : Word
  /-- STATUS.ERR (R30, R39). -/
  err : ErrCode
  /-- KIT_VALID, also STATUS[4] (R25, R30). -/
  kitValid : Bool
  /-- FORMAT, also STATUS[5] (R25, R30). -/
  format : Format
  /-- RESULT (R31). -/
  result : Word
  /-- IN_LEN.LEN (R32). -/
  inLen : Half
  /-- OUT_LEN.LEN (R33). -/
  outLen : Half
  /-- SRC_CTRL.SRC_ERR (R34). -/
  srcErr : Bool
  /-- ERR_INFO.VOICE (R35). -/
  errVoice : Voice
  /-- ERR_INFO.CTRL (R35). -/
  errCtrl : BitVec 4
  /-- ERR_FOUND (R36). -/
  errFound : Word
  /-- ERR_VALUE.VALUE (R37). -/
  errValue : Half
  /-- The voice store: VS[v][o] is the byte at 32*v + o (R23; log 8). -/
  vs : Memory
  /-- The header store: HS[i] is the byte at i (R24). -/
  hs : Memory
  /-- The input buffer IN (20_memory.md R60). -/
  inBuf : Memory
  /-- The output buffer OUT (20_memory.md R60). -/
  outBuf : Memory
  /-- The host's accesses and the platform's resets still to come, first first (R241; log 1). -/
  events : List Event
  /-- The values the host's reads have returned, oldest first (R241; log 7). -/
  reads : List HostRead
  deriving DecidableEq, Repr

/-- Why the machine would stop with a fault: never. Every error of 60_exceptions.md R200 is an ordinary outcome of its
command, recorded in STATUS.ERR, and the engine goes on (R206, R209, R210). -/
inductive Fault where
  deriving DecidableEq, Repr

/-- Why a step has no meaning. Every host-access refusal is safe: the spec has the model refuse the host program that makes
such an access (20_memory.md R73, 92_eei_decisions.md D24; log 6). -/
inductive Refusal where
  /-- Raised by exec for an instruction without a meaning; safe. No arm of this model raises it. -/
  | notModelled (mnemonic : String)
  /-- Raised by a host access to a reserved window offset `off` (R73); safe. -/
  | reservedOffset (off : Nat)
  /-- Raised by a host access to a register that is not 32 bits wide at a multiple of 4 (R73); safe. -/
  | registerAccess (off : Nat)
  /-- Raised by a host access to the IN or OUT window that is not 8 bits wide (R73); safe. -/
  | bufferAccess (off : Nat)
  /-- Raised by a host access outside the block's window, which is left to the platform (R74); safe. -/
  | outsideWindow (addr : Nat)
  deriving DecidableEq, Repr

/-- The machine right after reset, with this spec's parameter values: every register 0, no kit (10_state.md R41).
DESIGN CHOICE (log 4), unsafe: the stores, which the spec leaves unspecified, list nothing, so every byte of them reads 0.
No host access is waiting (log 2). -/
def State.reset : State :=
  { cfg := Config.spec
    cmd := 0
    err := .ok
    kitValid := false
    format := .format1
    result := 0
    inLen := 0
    outLen := 0
    srcErr := false
    errVoice := 0
    errCtrl := 0
    errFound := 0
    errValue := 0
    vs := []
    hs := []
    inBuf := []
    outBuf := []
    events := []
    reads := [] }

end Sys2Proof.Machine
end

