-- ==== Sys2Proof/Machine/Operands.lean ====
section
/-! DEFINITION. The operand forms of the commands and the tables they are read through: the control a C field names, its
kind and range, the value operand of SET, the code of a format (10_state.md R22, 30_encoding.md R94, 41_voice_codec.md R145). -/

namespace Sys2Proof.Machine

/-- The voices in the order the engine visits them (40_format_detector.md R122, 42_kit_codec.md R175). -/
def allVoices : List Voice := [0, 1, 2, 3]

/-- The controls in ascending c (10_state.md R22, 41_voice_codec.md R147). -/
def allControls : List Control :=
  [.algo, .mode, .vcf, .tune, .param1, .param2, .fxSend, .decay, .cutoff, .drive, .level]

/-- The control identifier c of a control (10_state.md R22). -/
def controlCode : Control → BitVec 4
  | .algo => 0
  | .mode => 1
  | .vcf => 2
  | .tune => 3
  | .param1 => 4
  | .param2 => 5
  | .fxSend => 6
  | .decay => 7
  | .cutoff => 8
  | .drive => 9
  | .level => 10

/-- The control a C field names; 11..15 name none (30_encoding.md R94, R95). -/
def controlOfCode (c : BitVec 4) : Option Control := allControls[c.toNat]?

/-- KIND(c) (10_state.md R22). -/
def controlKind : Control → ControlKind
  | .algo => .toggle
  | .mode => .toggle
  | .vcf => .toggle
  | .tune => .potentiometer
  | .param1 => .potentiometer
  | .param2 => .potentiometer
  | .fxSend => .potentiometer
  | .decay => .potentiometer
  | .cutoff => .potentiometer
  | .drive => .potentiometer
  | .level => .potentiometer

/-- MAXV(c): 2 for a toggle, 255 for a potentiometer (10_state.md R22). -/
def maxValue (c : Control) : Int :=
  match controlKind c with
  | .toggle => 2
  | .potentiometer => 255

/-- RangeOK(c, val): 0 <= val <= MAXV(c), on integers (41_voice_codec.md R145). -/
def rangeOK (c : Control) (val : Int) : Bool := decide (0 ≤ val) && decide (val ≤ maxValue c)

/-- The value operand of SET: sext_16 of the IMM field (30_encoding.md R94). -/
def immValue (imm : Half) : Int := imm.toInt

/-- The byte SET stores: val[7:0] (41_voice_codec.md R152). -/
def immByte (imm : Half) : Byte := imm.extractLsb' 0 8

/-- The code of a format: FORMAT_1 = 0, FORMAT_2 = 1 (10_state.md R25). -/
def formatCode : Format → Word
  | .format1 => 0
  | .format2 => 1

end Sys2Proof.Machine
end

