-- ==== Sys2Proof/Machine/Flags.lean ====
section
/-! DEFINITION. The engine's one condition code, STATUS.ERR, the diagnostics of the errors, and the words the host reads
from the registers that are made of fields (10_state.md R30 to R39, 60_exceptions.md R200). -/

namespace Sys2Proof.Machine

/-- The number of an error code (60_exceptions.md R200). -/
def errNumber : ErrCode → BitVec 4
  | .ok => 0
  | .malformedRecord => 1
  | .markerMismatch => 2
  | .outOfRange => 3
  | .sourceUnavailable => 4
  | .illegalCommand => 5
  | .noKit => 6

/-- The code an error writes to STATUS.ERR (60_exceptions.md R200). -/
def errorCode : EngineError → ErrCode
  | .malformedRecord _ => .malformedRecord
  | .markerMismatch _ _ => .markerMismatch
  | .outOfRange _ _ _ => .outOfRange
  | .sourceUnavailable => .sourceUnavailable
  | .illegalCommand => .illegalCommand
  | .noKit => .noKit

/-- What an error writes to ERR_INFO.VOICE: the voice a MARKER_MISMATCH or OUT_OF_RANGE names, else 0 (10_state.md R35). -/
def errorVoice : EngineError → Voice
  | .malformedRecord _ => 0
  | .markerMismatch v _ => v
  | .outOfRange v _ _ => v
  | .sourceUnavailable => 0
  | .illegalCommand => 0
  | .noKit => 0

/-- What an error writes to ERR_INFO.CTRL: the control an OUT_OF_RANGE names, else 0 (10_state.md R35). -/
def errorCtrl : EngineError → BitVec 4
  | .malformedRecord _ => 0
  | .markerMismatch _ _ => 0
  | .outOfRange _ c _ => c
  | .sourceUnavailable => 0
  | .illegalCommand => 0
  | .noKit => 0

/-- What an error writes to ERR_FOUND: the bytes a MARKER_MISMATCH found, else 0 (10_state.md R36). -/
def errorFound : EngineError → Word
  | .malformedRecord _ => 0
  | .markerMismatch _ found => found
  | .outOfRange _ _ _ => 0
  | .sourceUnavailable => 0
  | .illegalCommand => 0
  | .noKit => 0

/-- What an error writes to ERR_VALUE: the value of an OUT_OF_RANGE, the length of a MALFORMED_RECORD, else 0 (10_state.md R37). -/
def errorValue : EngineError → Half
  | .malformedRecord len => len
  | .markerMismatch _ _ => 0
  | .outOfRange _ _ value => value
  | .sourceUnavailable => 0
  | .illegalCommand => 0
  | .noKit => 0

/-- Four found marker bytes as ERR_FOUND packs them: byte k in bits [8k+7:8k] (10_state.md R36, 20_memory.md R65). -/
def packFound (found : List Byte) : Word :=
  found.getD 3 0 ++ found.getD 2 0 ++ found.getD 1 0 ++ found.getD 0 0

/-- The STATUS word: ERR in [3:0], KIT_VALID in [4], FORMAT in [5], the rest 0 (10_state.md R30). -/
def statusWord (s : State) : Word :=
  (0 : BitVec 26) ++ (formatCode s.format).extractLsb' 0 1 ++ BitVec.ofBool s.kitValid ++ errNumber s.err

/-- The SRC_CTRL word: SRC_ERR in [0], the rest 0 (10_state.md R34). -/
def srcCtrlWord (s : State) : Word := (0 : BitVec 31) ++ BitVec.ofBool s.srcErr

/-- The ERR_INFO word: VOICE in [1:0], CTRL in [11:8], the rest 0 (10_state.md R35). -/
def errInfoWord (s : State) : Word := (0 : BitVec 20) ++ s.errCtrl ++ (0 : BitVec 6) ++ s.errVoice

end Sys2Proof.Machine
end

