-- ==== Sys2Proof/Machine/Ops.lean ====
section
/-! DEFINITION. The named operations on byte stores, and the two ways a command ends: raising an error, which records it and
changes nothing else, and completing (60_exceptions.md R206). -/

namespace Sys2Proof.Machine

/-! ### Byte stores -/

/-- What an index that a store does not list reads as.
DESIGN CHOICE (log 4), unsafe: the spec has an unwritten byte read as any value (10_state.md R41). -/
def Memory.unlisted : Byte := 0

/-- MemRead of one byte (00_scope.md R13). -/
def Memory.read : Memory → Nat → Byte
  | [], _ => Memory.unlisted
  | cell :: rest, a => if cell.1 = a then cell.2 else Memory.read rest a

/-- The bytes at indices a .. a+n-1, `buf[a .. a+n)` (00_scope.md R11). -/
def Memory.readBytes (m : Memory) (a n : Nat) : List Byte := (List.range n).map fun k => Memory.read m (a + k)

/-- The cells of bytes laid out from index a on, without those that an unlisted index reads as. -/
def Memory.cells (a : Nat) : List Byte → Memory
  | [] => []
  | b :: bs => if b = Memory.unlisted then Memory.cells (a + 1) bs else (a, b) :: Memory.cells (a + 1) bs

/-- The store with bytes written at indices a, a+1, ...; every other index as before. -/
def Memory.writeBytes (m : Memory) (a : Nat) (bs : List Byte) : Memory :=
  m.filter (fun cell => decide (cell.1 < a)) ++ Memory.cells a bs
    ++ m.filter (fun cell => decide (a + bs.length ≤ cell.1))

/-- MemWrite of one byte (00_scope.md R13). -/
def Memory.write (m : Memory) (a : Nat) (b : Byte) : Memory := Memory.writeBytes m a [b]

/-- The store that holds exactly these bytes from index 0 on, and unlisted bytes above. -/
def Memory.ofBytes (bs : List Byte) : Memory := Memory.cells 0 bs

/-- The canonical form of a store of `size` bytes: indices strictly rising and below the size, no entry equal to what an
unlisted index reads as. -/
def Memory.wf (size : Nat) (m : Memory) : Bool :=
  decide (m.Pairwise fun x y => x.1 < y.1) && m.all fun cell => decide (cell.1 < size) && decide (cell.2 ≠ Memory.unlisted)

/-! ### The voice store (10_state.md R23) -/

/-- The key of VS[v][o] in the one byte store `vs` (log 8). -/
def vsAddr (v : Voice) (o : Nat) : Nat := 32 * v.toNat + o

/-- The 32 bytes VS[v][0..32). -/
def voiceImage (s : State) (v : Voice) : List Byte := Memory.readBytes s.vs (vsAddr v 0) 32

/-! ### How a command ends -/

/-- The state after a command that raises `e`: STATUS.ERR and the ERR_* registers, and nothing else (60_exceptions.md R206). -/
def State.raised (e : EngineError) (s : State) : State :=
  { s with
    err := errorCode e
    errVoice := errorVoice e
    errCtrl := errorCtrl e
    errFound := errorFound e
    errValue := errorValue e }

/-- The state after a command that completes, its results already in `s`: STATUS.ERR = OK, ERR_* = 0 (60_exceptions.md R206). -/
def State.completed (s : State) : State :=
  { s with
    err := .ok
    errVoice := 0
    errCtrl := 0
    errFound := 0
    errValue := 0 }

/-- Taking an error, the engine's one exception mechanism (60_exceptions.md R206). There is no vector, no saved state and no
return from it (R210). -/
def raise (e : EngineError) (s : State) : Host.Outcome State Fault Refusal := .next (State.raised e s)

/-- Completing a command (60_exceptions.md R206). -/
def complete (s : State) : Host.Outcome State Fault Refusal := .next (State.completed s)

end Sys2Proof.Machine
end

