-- ==== Sys2Proof/Machine/Layout.lean ====
section
/-! DEFINITION. The record layout: region lengths and offsets, control offsets, the marker (00_scope.md R8, R10,
20_memory.md R61 to R64). -/

namespace Sys2Proof.Machine

/-- HDR_LEN(fmt) (00_scope.md R10). -/
def hdrLen (p : Params) : Format → Nat
  | .format1 => p.hdrLenF1
  | .format2 => p.hdrLenF2

/-- HDR_MAX, the size of the header store (00_scope.md R10). -/
def hdrMax : Nat := 59

/-- The size of one voice's array in the voice store (10_state.md R23). -/
def voiceMax : Nat := 32

/-- VLEN(3, fmt) (00_scope.md R8). -/
def lastVoiceLen : Format → Nat
  | .format1 => 30
  | .format2 => 32

/-- VLEN(v, fmt): 26 bytes for voices 0..2, 30 or 32 for voice 3 (00_scope.md R8). -/
def vlen (v : Voice) (fmt : Format) : Nat := if v = 3 then lastVoiceLen fmt else 26

/-- VBASE(v, fmt) = HDR_LEN(fmt) + 26*v (20_memory.md R62). -/
def vbase (p : Params) (v : Voice) (fmt : Format) : Nat := hdrLen p fmt + 26 * v.toNat

/-- TOTAL(fmt) = HDR_LEN(fmt) + 3*26 + VLEN(3, fmt) (20_memory.md R63). -/
def total (p : Params) (fmt : Format) : Nat := hdrLen p fmt + 3 * 26 + vlen 3 fmt

/-- CTRL_OFF[c] (00_scope.md R9, 41_voice_codec.md R144). -/
def ctrlOff (p : Params) : Control → Nat
  | .algo => p.ctrlOff.algo
  | .mode => p.ctrlOff.mode
  | .vcf => p.ctrlOff.vcf
  | .tune => p.ctrlOff.tune
  | .param1 => p.ctrlOff.param1
  | .param2 => p.ctrlOff.param2
  | .fxSend => p.ctrlOff.fxSend
  | .decay => p.ctrlOff.decay
  | .cutoff => p.ctrlOff.cutoff
  | .drive => p.ctrlOff.drive
  | .level => p.ctrlOff.level

/-- MARKER = [26, 24, 10, 22] (00_scope.md R8). -/
def marker : List Byte := [26, 24, 10, 22]

/-- The window of voice v in a record of format fmt held in a buffer (20_memory.md R62, 40_format_detector.md R124). -/
def voiceWindow (p : Params) (buf : Memory) (v : Voice) (fmt : Format) : List Byte :=
  Memory.readBytes buf (vbase p v fmt) (vlen v fmt)

/-- The four bytes at the marker position of voice v's window: `buf[VBASE + 4 .. VBASE + 8)` (20_memory.md R64). -/
def foundMarker (p : Params) (buf : Memory) (v : Voice) (fmt : Format) : List Byte :=
  Memory.readBytes buf (vbase p v fmt + 4) 4

/-- CTRL(v, c): the byte VS[v][CTRL_OFF[c]] (10_state.md R23). -/
def controlByte (s : State) (v : Voice) (c : Control) : Byte :=
  Memory.read s.vs (vsAddr v (ctrlOff s.cfg.p c))

end Sys2Proof.Machine
end

