-- ==== Sys2Proof/Machine/FormatDetector.lean ====
section
/-! DEFINITION. The marker_validator, the format_detector_mux and the DETECT command (40_format_detector.md R120 to R127,
41_voice_codec.md R141). -/

namespace Sys2Proof.Machine

/-- MarkerOK(found) of the marker_validator (41_voice_codec.md R141). -/
def markerOK (found : List Byte) : Bool := decide (found = marker)

/-- The length stage of Detect: the format whose total is `len`, if any (40_format_detector.md R121). -/
def lengthStage (p : Params) (len : Half) : Option Format :=
  if len.toNat = total p .format1 then some .format1
  else if len.toNat = total p .format2 then some .format2
  else none

/-- The marker stage of Detect: the error of the first voice, in ascending order, whose marker fails
(40_format_detector.md R122). -/
def markerStage (p : Params) (buf : Memory) (fmt : Format) : Option EngineError :=
  allVoices.findSome? fun v =>
    if markerOK (foundMarker p buf v fmt) then none
    else some (.markerMismatch v (packFound (foundMarker p buf v fmt)))

/-- Detect(buf, len) (40_format_detector.md R120 to R123). -/
def detectFormat (p : Params) (buf : Memory) (len : Half) : Except EngineError Format :=
  match lengthStage p len with
  | none => .error (.malformedRecord len)
  | some fmt =>
    match markerStage p buf fmt with
    | some e => .error e
    | none => .ok fmt

/-- What DETECT and LOAD do first: SRC_ERR, then Detect(IN, IN_LEN) (40_format_detector.md R125, 42_kit_codec.md R171,
60_exceptions.md R203, R207). -/
def detectInput (s : State) : Except EngineError Format :=
  if s.srcErr then .error .sourceUnavailable else detectFormat s.cfg.p s.inBuf s.inLen

/-- DETECT (40_format_detector.md R125). -/
def execDetect (s : State) : Host.Outcome State Fault Refusal :=
  match detectInput s with
  | .error e => raise e s
  | .ok fmt => complete { s with result := formatCode fmt }

end Sys2Proof.Machine
end

