-- ==== Sys2Proof/Machine/VoiceCodec.lean ====
section
/-! DEFINITION. The field_packer_unpacker (decode, range check, encode) and the commands GET and SET
(41_voice_codec.md R142 to R153). -/

namespace Sys2Proof.Machine

/-- VoiceDecode(region, v, fmt): the 32-byte image of a voice window, or MARKER_MISMATCH; no range validation
(41_voice_codec.md R142, R143). -/
def voiceDecode (region : List Byte) (v : Voice) (fmt : Format) : Except EngineError (List Byte) :=
  if markerOK ((region.drop 4).take 4) then
    .ok ((List.range voiceMax).map fun o => if o < vlen v fmt then region.getD o 0 else 0)
  else .error (.markerMismatch v (packFound ((region.drop 4).take 4)))

/-- VoiceEncode(img, v, fmt): the window of a voice, the marker written from the constant (41_voice_codec.md R146). -/
def voiceEncode (img : List Byte) (v : Voice) (fmt : Format) : List Byte :=
  (List.range (vlen v fmt)).map fun o => if 4 ≤ o ∧ o ≤ 7 then marker.getD (o - 4) 0 else img.getD o 0

/-- VoiceCheck(img, v): the error of the first control, in ascending c, that is out of range (41_voice_codec.md R147). -/
def voiceCheck (p : Params) (img : List Byte) (v : Voice) : Option EngineError :=
  allControls.findSome? fun c =>
    if rangeOK c (img.getD (ctrlOff p c) 0).toNat then none
    else some (.outOfRange v (controlCode c) ((img.getD (ctrlOff p c) 0).setWidth 16))

/-- GET v, c (41_voice_codec.md R150). A control identifier that names no control is an illegal command (30_encoding.md R95);
the decoder passes none on (log 9). -/
def execGet (v : Voice) (c : BitVec 4) (s : State) : Host.Outcome State Fault Refusal :=
  match controlOfCode c with
  | none => raise .illegalCommand s
  | some ctl =>
    if s.kitValid then complete { s with result := (controlByte s v ctl).setWidth 32 }
    else raise .noKit s

/-- SET v, c, val with val = sext_16(imm) (41_voice_codec.md R152). A control identifier that names no control is an illegal
command (30_encoding.md R95); the decoder passes none on (log 9). -/
def execSet (v : Voice) (c : BitVec 4) (imm : Half) (s : State) : Host.Outcome State Fault Refusal :=
  match controlOfCode c with
  | none => raise .illegalCommand s
  | some ctl =>
    if s.kitValid then
      if rangeOK ctl (immValue imm) then
        complete { s with vs := Memory.write s.vs (vsAddr v (ctrlOff s.cfg.p ctl)) (immByte imm) }
      else raise (.outOfRange v c imm) s
    else raise .noKit s

end Sys2Proof.Machine
end

