-- ==== Sys2Proof/Machine/KitCodec.lean ====
section
/-! DEFINITION. LOAD and SAVE (42_kit_codec.md R170 to R181). -/

namespace Sys2Proof.Machine

/-- The header image LOAD stages: IN[i] below HDR_LEN(fmt), 0 up to HDR_MAX (42_kit_codec.md R171). -/
def headerImage (p : Params) (buf : Memory) (fmt : Format) : List Byte :=
  (List.range hdrMax).map fun i => if i < hdrLen p fmt then Memory.read buf i else 0

/-- The images of the given voices, one after another, or the first error of VoiceDecode (42_kit_codec.md R171). -/
def decodeVoices (p : Params) (buf : Memory) (fmt : Format) : List Voice → Except EngineError (List Byte)
  | [] => .ok []
  | v :: vs =>
    match voiceDecode (voiceWindow p buf v fmt) v fmt with
    | .error e => .error e
    | .ok img =>
      match decodeVoices p buf fmt vs with
      | .error e => .error e
      | .ok imgs => .ok (img ++ imgs)

/-- LOAD (42_kit_codec.md R170, R171): detection, then the whole kit state at once. -/
def execLoad (s : State) : Host.Outcome State Fault Refusal :=
  match detectInput s with
  | .error e => raise e s
  | .ok fmt =>
    match decodeVoices s.cfg.p s.inBuf fmt allVoices with
    | .error e => raise e s
    | .ok imgs =>
      complete { s with
        hs := Memory.ofBytes (headerImage s.cfg.p s.inBuf fmt)
        vs := Memory.ofBytes imgs
        format := fmt
        kitValid := true
        result := formatCode fmt }

/-- The range check of every control before SAVE, voices 0..3 and in each controls 0..10 (42_kit_codec.md R175). -/
def saveCheck (s : State) : Option EngineError :=
  allVoices.findSome? fun v => voiceCheck s.cfg.p (voiceImage s v) v

/-- The record SAVE writes: the header region, then the four encoded voices in order (42_kit_codec.md R175). -/
def encodeKit (s : State) : List Byte :=
  Memory.readBytes s.hs 0 (hdrLen s.cfg.p s.format)
    ++ allVoices.flatMap fun v => voiceEncode (voiceImage s v) v s.format

/-- SAVE (42_kit_codec.md R175). -/
def execSave (s : State) : Host.Outcome State Fault Refusal :=
  if s.kitValid then
    match saveCheck s with
    | some e => raise e s
    | none =>
      complete { s with
        outBuf := Memory.writeBytes s.outBuf 0 (encodeKit s)
        outLen := BitVec.ofNat 16 (total s.cfg.p s.format)
        result := BitVec.ofNat 32 (total s.cfg.p s.format) }
  else raise .noKit s

end Sys2Proof.Machine
end

