-- ==== Sys2Proof/Machine/Dispatch.lean ====
section
/-! DEFINITION. The meaning of each command (30_encoding.md R93). -/

namespace Sys2Proof.Machine

def exec (i : Instr) (s : State) : Host.Outcome State Fault Refusal :=
  match i with
  | .detect => Sys2Proof.Machine.execDetect s
  | .load => Sys2Proof.Machine.execLoad s
  | .save => Sys2Proof.Machine.execSave s
  | .get v c => Sys2Proof.Machine.execGet v c s
  | .set v c imm => Sys2Proof.Machine.execSet v c imm s

end Sys2Proof.Machine
end

