-- ==== Sys2Proof/Machine/HostPort.lean ====
section
/-! DEFINITION. The host port: the window's address map, what each host access does, and reset (10_state.md R29 to R42,
20_memory.md R66 to R75, 30_encoding.md R101, 70_reset_and_hazards.md R230). -/

namespace Sys2Proof.Machine

/-! ### The address map -/

/-- The size of the host window (20_memory.md R70). -/
def windowSize : Nat := 0x300

/-- The offset of the input buffer's window (20_memory.md R70). -/
def inWindow : Nat := 0x100

/-- The offset of the output buffer's window (20_memory.md R70). -/
def outWindow : Nat := 0x200

/-- The window offset of a register (10_state.md R29). -/
def regOffset : Reg → Nat
  | .cmd => 0x00
  | .status => 0x04
  | .result => 0x08
  | .inLen => 0x0C
  | .outLen => 0x10
  | .srcCtrl => 0x14
  | .errInfo => 0x18
  | .errFound => 0x1C
  | .errValue => 0x20

/-- The register at a window offset (10_state.md R29). -/
def regAt : Nat → Option Reg
  | 0x00 => some .cmd
  | 0x04 => some .status
  | 0x08 => some .result
  | 0x0C => some .inLen
  | 0x10 => some .outLen
  | 0x14 => some .srcCtrl
  | 0x18 => some .errInfo
  | 0x1C => some .errFound
  | 0x20 => some .errValue
  | _ => none

/-- The bus address of a window offset (20_memory.md R70). -/
def busAddr (p : Params) (off : Nat) : Nat := p.hostBase + off

/-- What a window offset names (20_memory.md R70). -/
def regionAt (p : Params) (off : Nat) : Region :=
  if off < 0x24 then
    match regAt off with
    | some r => .register r
    | none => .insideRegister
  else if off < inWindow then .reserved
  else if off < outWindow then
    if off - inWindow < p.inCap then .inByte (off - inWindow) else .reserved
  else if off < windowSize then
    if off - outWindow < p.outCap then .outByte (off - outWindow) else .reserved
  else .outside

/-- The window offset of a bus address not below the window, and what it names. -/
def regionOfAddr (p : Params) (addr : Nat) : Region :=
  if addr < p.hostBase then .outside else regionAt p (addr - p.hostBase)

/-- The refusal of an access whose width or alignment does not fit what it addresses (20_memory.md R73, R74; log 6). -/
def refuseAccess (p : Params) (addr : Nat) : Host.Outcome State Fault Refusal :=
  match regionOfAddr p addr with
  | .register _ => .refused (.registerAccess (addr - p.hostBase))
  | .insideRegister => .refused (.registerAccess (addr - p.hostBase))
  | .inByte _ => .refused (.bufferAccess (addr - p.hostBase))
  | .outByte _ => .refused (.bufferAccess (addr - p.hostBase))
  | .reserved => .refused (.reservedOffset (addr - p.hostBase))
  | .outside => .refused (.outsideWindow addr)

/-! ### Register accesses -/

/-- The word a host read of a register returns (10_state.md R29 to R37). -/
def regRead (s : State) : Reg → Word
  | .cmd => s.cmd
  | .status => statusWord s
  | .result => s.result
  | .inLen => s.inLen.setWidth 32
  | .outLen => s.outLen.setWidth 32
  | .srcCtrl => srcCtrlWord s
  | .errInfo => errInfoWord s
  | .errFound => s.errFound
  | .errValue => s.errValue.setWidth 32

/-- The command a CMD write starts: the word is stored, then decoded and executed; an illegal word raises ILLEGAL_COMMAND
(10_state.md R29, 60_exceptions.md R201; log 11). -/
def runCommand (w : Word) (s : State) : Host.Outcome State Fault Refusal :=
  match decode w with
  | .ok i => exec i { s with cmd := w }
  | .error _ => raise .illegalCommand { s with cmd := w }

/-- A host write of a register: CMD starts a command, IN_LEN and SRC_CTRL take their fields, the read-only registers ignore
it (10_state.md R29, R32, R34, R38). -/
def regWrite (w : Word) (s : State) : Reg → Host.Outcome State Fault Refusal
  | .cmd => runCommand w s
  | .status => .next s
  | .result => .next s
  | .inLen => .next { s with inLen := w.extractLsb' 0 16 }
  | .outLen => .next s
  | .srcCtrl => .next { s with srcErr := w.getLsbD 0 }
  | .errInfo => .next s
  | .errFound => .next s
  | .errValue => .next s

/-- The host has read a value: it is appended to what its reads returned, and nothing else changes (20_memory.md R67; log 7). -/
def logRead (r : HostRead) (s : State) : Host.Outcome State Fault Refusal := .next { s with reads := s.reads ++ [r] }

/-! ### Host accesses -/

/-- WR32 (30_encoding.md R101). -/
def hostWrite32 (addr : Nat) (w : Word) (s : State) : Host.Outcome State Fault Refusal :=
  match regionOfAddr s.cfg.p addr with
  | .register r => regWrite w s r
  | _ => refuseAccess s.cfg.p addr

/-- RD32 (30_encoding.md R101). -/
def hostRead32 (addr : Nat) (s : State) : Host.Outcome State Fault Refusal :=
  match regionOfAddr s.cfg.p addr with
  | .register r => logRead (.word (regRead s r)) s
  | _ => refuseAccess s.cfg.p addr

/-- WR8: a byte of IN, or the OUT window, which ignores it (20_memory.md R71, R72). -/
def hostWrite8 (addr : Nat) (b : Byte) (s : State) : Host.Outcome State Fault Refusal :=
  match regionOfAddr s.cfg.p addr with
  | .inByte a => .next { s with inBuf := Memory.write s.inBuf a b }
  | .outByte _ => .next s
  | _ => refuseAccess s.cfg.p addr

/-- RD8: a byte of IN or of OUT (20_memory.md R71, R72). -/
def hostRead8 (addr : Nat) (s : State) : Host.Outcome State Fault Refusal :=
  match regionOfAddr s.cfg.p addr with
  | .inByte a => logRead (.byte (Memory.read s.inBuf a)) s
  | .outByte a => logRead (.byte (Memory.read s.outBuf a)) s
  | _ => refuseAccess s.cfg.p addr

/-! ### Reset -/

/-- The state reset leaves: every register 0, no kit, the stores holding what the event says they hold
(10_state.md R41, 70_reset_and_hazards.md R230, R232; log 5). -/
def State.afterReset (draw : PowerUp) (s : State) : State :=
  { s with
    cmd := 0
    err := .ok
    kitValid := false
    format := .format1
    result := 0
    inLen := 0
    outLen := 0
    srcErr := false
    errVoice := 0
    errCtrl := 0
    errFound := 0
    errValue := 0
    vs := Memory.ofBytes (draw.vsBytes.take 128)
    hs := Memory.ofBytes (draw.hsBytes.take hdrMax)
    inBuf := Memory.ofBytes (draw.inBytes.take s.cfg.p.inCap)
    outBuf := Memory.ofBytes (draw.outBytes.take s.cfg.p.outCap) }

/-! ### Events -/

/-- What one event at the port does (30_encoding.md R101, 70_reset_and_hazards.md R230). -/
def handleEvent (e : Event) (s : State) : Host.Outcome State Fault Refusal :=
  match e with
  | .wr32 addr w => hostWrite32 addr w s
  | .rd32 addr => hostRead32 addr s
  | .wr8 addr b => hostWrite8 addr b s
  | .rd8 addr => hostRead8 addr s
  | .otherWidth _ addr => refuseAccess s.cfg.p addr
  | .reset draw => .next (State.afterReset draw s)

/-- One step: the first waiting event; with none waiting the engine is idle and nothing changes (70_reset_and_hazards.md
R231; log 1). -/
def nextEvent (s : State) : Host.Outcome State Fault Refusal :=
  match s.events with
  | [] => .next s
  | e :: rest => handleEvent e { s with events := rest }

/-- A host program's first command of a table row: the write of its word to CMD, placed before every waiting event. -/
def placeCommand (s : State) (nbits w : Nat) : State :=
  { s with events := .wr32 (busAddr s.cfg.p (regOffset .cmd)) (BitVec.ofNat 32 (w % 2 ^ nbits)) :: s.events }

/-! ### The pseudo-instructions of host programs (30_encoding.md R101) -/

/-- ISSUE <command>. -/
def issue (p : Params) (i : Instr) : List Event := [.wr32 (busAddr p (regOffset .cmd)) (encode i)]

/-- SETLEN n. -/
def setLen (p : Params) (n : Word) : List Event := [.wr32 (busAddr p (regOffset .inLen)) n]

/-- SRCERR b. -/
def srcErrEvents (p : Params) (b : Bool) : List Event :=
  [.wr32 (busAddr p (regOffset .srcCtrl)) (if b then 1 else 0)]

/-- INFILL a, [b0, ..., bk]. -/
def inFill (p : Params) (a : Nat) : List Byte → List Event
  | [] => []
  | b :: bs => .wr8 (busAddr p (inWindow + a)) b :: inFill p (a + 1) bs

/-- CHECK off, word: the read; the host's expectation is not the block's. -/
def checkEvents (p : Params) (off : Nat) : List Event := [.rd32 (busAddr p off)]

end Sys2Proof.Machine
end

