-- ==== Sys2Proof/Machine/Step.lean ====
section
/-! DEFINITION. One step of the machine: the next host access or reset, atomically (20_memory.md R75, 70_reset_and_hazards.md R241). -/

namespace Sys2Proof.Machine

/-- One step (log 1). -/
def step (s : State) : Host.Outcome State Fault Refusal := nextEvent s

/-- `s` with the command word `w` of `nbits` bits as the host's next write to CMD (log 2). -/
def State.withFetchWord (s : State) (nbits w : Nat) : State := placeCommand s nbits w

end Sys2Proof.Machine
end

