-- ==== Sys2Proof/Safety.lean ====
section
/-! DEFINITION. The terms the claims use: the protocol of the host port, which words are illegal, which part of a state is
the kit, and the conditions that every step keeps. -/

namespace Sys2Proof.Safety

open Sys2Proof.Machine

/-! ### The host's protocol (20_memory.md R66, R70, R73) -/

/-- A 32-bit access inside the protocol: one of the nine register words at HOST_BASE + 0x00, 0x04, ..., 0x20. -/
def RegisterAddress (p : Params) (addr : Nat) : Prop :=
  p.hostBase ≤ addr ∧ addr - p.hostBase < 0x24 ∧ (addr - p.hostBase) % 4 = 0

/-- An 8-bit access inside the protocol: a byte of the IN window or of the OUT window. -/
def BufferAddress (p : Params) (addr : Nat) : Prop :=
  (p.hostBase + 0x100 ≤ addr ∧ addr < p.hostBase + 0x100 + p.inCap) ∨
  (p.hostBase + 0x200 ≤ addr ∧ addr < p.hostBase + 0x200 + p.outCap)

/-- An event the protocol allows; reset is always allowed (70_reset_and_hazards.md R230). -/
def InProtocol (p : Params) : Event → Prop
  | .wr32 addr _ => RegisterAddress p addr
  | .rd32 addr => RegisterAddress p addr
  | .wr8 addr _ => BufferAddress p addr
  | .rd8 addr => BufferAddress p addr
  | .otherWidth _ _ => False
  | .reset _ => True

/-- The event that issues a command word: a write of it to CMD (10_state.md R29). -/
def commandWrite (p : Params) (w : Word) : Event := .wr32 p.hostBase w

/-! ### Illegal command words (30_encoding.md R91, R92, R95), said without the decoder -/

/-- Bits lo+n-1 .. lo of a word as a number (00_scope.md R11). -/
def bits (w : Word) (lo n : Nat) : Nat := w.toNat / 2 ^ lo % 2 ^ n

/-- A word is illegal: a reserved opcode, RSV not 0, an unused field not 0, or c >= 11 in GET or SET. -/
def IllegalWord (w : Word) : Prop :=
  (bits w 0 4 = 0 ∨ 6 ≤ bits w 0 4) ∨
  bits w 10 6 ≠ 0 ∨
  ((bits w 0 4 = 1 ∨ bits w 0 4 = 2 ∨ bits w 0 4 = 3) ∧ (bits w 4 2 ≠ 0 ∨ bits w 6 4 ≠ 0 ∨ bits w 16 16 ≠ 0)) ∨
  (bits w 0 4 = 4 ∧ bits w 16 16 ≠ 0) ∨
  ((bits w 0 4 = 4 ∨ bits w 0 4 = 5) ∧ 11 ≤ bits w 6 4)

/-- `e` neither resets the block nor issues a LOAD or a SET, so it leaves the kit as it is; a word with OP = 5 that is
illegal is no SET (30_encoding.md R95). -/
def LeavesKit (p : Params) : Event → Prop
  | .wr32 addr w =>
    addr = p.hostBase → w.toNat ≠ 2 ∧ (bits w 0 4 = 5 → IllegalWord w)
  | .reset _ => False
  | _ => True

/-! ### Records in a buffer -/

/-- The marker of voice v stands in a buffer laid out as a record of format fmt (20_memory.md R64, 41_voice_codec.md R141). -/
def MarkerAt (p : Params) (buf : Memory) (fmt : Format) (v : Voice) : Prop :=
  Memory.read buf (vbase p v fmt + 4) = 26 ∧ Memory.read buf (vbase p v fmt + 5) = 24 ∧
  Memory.read buf (vbase p v fmt + 6) = 10 ∧ Memory.read buf (vbase p v fmt + 7) = 22

/-- What ERR_FOUND packs for voice v of a buffer: found byte k in bits [8k+7:8k] (10_state.md R36). -/
def foundWord (p : Params) (buf : Memory) (fmt : Format) (v : Voice) : Word :=
  BitVec.ofNat 32
    ((Memory.read buf (vbase p v fmt + 4)).toNat
      + 256 * (Memory.read buf (vbase p v fmt + 5)).toNat
      + 65536 * (Memory.read buf (vbase p v fmt + 6)).toNat
      + 16777216 * (Memory.read buf (vbase p v fmt + 7)).toNat)

/-- Every toggle byte of a record in a buffer is at most 2 (42_kit_codec.md R179). -/
def TogglesInRange (p : Params) (buf : Memory) (fmt : Format) : Prop :=
  ∀ v c, c = .algo ∨ c = .mode ∨ c = .vcf → (Memory.read buf (vbase p v fmt + ctrlOff p c)).toNat ≤ 2

/-! ### The kit (10_state.md R23 to R25) -/

/-- Two states hold the same kit, under the same parameters. -/
def SameKit (s t : State) : Prop :=
  t.cfg = s.cfg ∧ t.kitValid = s.kitValid ∧ t.format = s.format ∧ t.hs = s.hs ∧ t.vs = s.vs

/-- The range a control admits (10_state.md R22): toggles 0..2, potentiometers 0..255. -/
abbrev InRange (c : Control) (val : Int) : Prop :=
  0 ≤ val ∧ val ≤ (if c = .algo ∨ c = .mode ∨ c = .vcf then 2 else 255)

/-- Control c of voice v, as SAVE checks it, is out of range (41_voice_codec.md R147). -/
def BadControl (s : State) (v : Voice) (c : Control) : Prop := ¬ InRange c (controlByte s v c).toNat

/-- (v, c) is the first control out of range: the lowest voice, and in it the lowest control identifier (R147, R207). -/
def FirstBadControl (s : State) (v : Voice) (c : Control) : Prop :=
  BadControl s v c ∧
  (∀ u d, u.toNat < v.toNat → ¬ BadControl s u d) ∧
  ∀ d, (controlCode d).toNat < (controlCode c).toNat → ¬ BadControl s v d

/-- SETs issued one after another, in a state: each (voice, control, IMM) in the list's order. -/
def runSets : List (Voice × Control × Half) → State → Host.Outcome State Fault Refusal
  | [], s => .next s
  | (v, c, imm) :: rest, s =>
    match exec (.set v (controlCode c) imm) s with
    | .next t => runSets rest t
    | .fault r => .fault r
    | .refused r => .refused r

/-- A record buffer with the bytes of the listed controls replaced, the last value of each winning (42_kit_codec.md R181). -/
def replaceControls (p : Params) (fmt : Format) (buf : Memory) : List (Voice × Control × Half) → Memory
  | [] => buf
  | (v, c, imm) :: rest =>
    replaceControls p fmt (Memory.write buf (vbase p v fmt + ctrlOff p c) (BitVec.ofNat 8 imm.toNat)) rest

/-- What the host may do between a LOAD and a SAVE: an access or word that leaves the kit, or a SET with any IMM. -/
inductive Action where
  | other (e : Event)
  | set (v : Voice) (c : Control) (imm : Half)
  deriving DecidableEq, Repr

/-- The event of an action; a SET is the write of its word to CMD. -/
def Action.event (p : Params) : Action → Event
  | .other e => e
  | .set v c imm => commandWrite p (encode (.set v (controlCode c) imm))

/-- The SETs among the actions whose value is in range, in order: those that complete while a kit is held (41_voice_codec.md R152). -/
def completedSets : List Action → List (Voice × Control × Half)
  | [] => []
  | .other _ :: rest => completedSets rest
  | .set v c imm :: rest =>
    if InRange c imm.toInt then (v, c, imm) :: completedSets rest else completedSets rest

/-! ### Conditions that every step keeps -/

/-- The four stores are canonical and within their sizes (20_memory.md R60). -/
def StoresCanonical (s : State) : Prop :=
  Memory.wf s.cfg.p.inCap s.inBuf = true ∧ Memory.wf s.cfg.p.outCap s.outBuf = true ∧
  Memory.wf 128 s.vs = true ∧ Memory.wf 59 s.hs = true

/-- While a kit is held, the marker stands in every voice of the voice store (10_state.md R26). -/
def MarkersHeld (s : State) : Prop :=
  s.kitValid = true → ∀ v : Voice,
    Memory.read s.vs (vsAddr v 4) = 26 ∧ Memory.read s.vs (vsAddr v 5) = 24 ∧
    Memory.read s.vs (vsAddr v 6) = 10 ∧ Memory.read s.vs (vsAddr v 7) = 22

/-- While a kit is held, the store bytes beyond the windows and the header are 0 (41_voice_codec.md R142, 42_kit_codec.md R171). -/
def TailsZero (s : State) : Prop :=
  s.kitValid = true →
    (∀ (v : Voice) (o : Nat), vlen v s.format ≤ o → o < 32 → Memory.read s.vs (vsAddr v o) = 0) ∧
    (∀ i, hdrLen s.cfg.p s.format ≤ i → i < 59 → Memory.read s.hs i = 0)

/-- The diagnostics belong to the code in STATUS.ERR (10_state.md R35 to R37, 60_exceptions.md R200). -/
def DiagnosticsMatch (s : State) : Prop :=
  (s.err ≠ .markerMismatch → s.err ≠ .outOfRange → s.errVoice = 0) ∧
  (s.err ≠ .outOfRange → s.errCtrl = 0) ∧
  (s.err ≠ .markerMismatch → s.errFound = 0) ∧
  (s.err ≠ .malformedRecord → s.err ≠ .outOfRange → s.errValue = 0) ∧
  (s.err = .malformedRecord → ∀ fmt, s.errValue.toNat ≠ total s.cfg.p fmt) ∧
  (s.err = .markerMismatch → s.errFound ≠ 0x160A181A) ∧
  (s.err = .outOfRange → ∃ c, s.errCtrl = controlCode c ∧ ¬ InRange c s.errValue.toInt)

/-- OUT_LEN is 0 or the length of a record that stands in OUT: its markers are there and its toggles are in range
(10_state.md R33, 42_kit_codec.md R177, R178). -/
def OutputIsRecord (s : State) : Prop :=
  s.outLen = 0 ∨
  ∃ fmt, s.outLen.toNat = total s.cfg.p fmt ∧ (∀ v, MarkerAt s.cfg.p s.outBuf fmt v) ∧
    TogglesInRange s.cfg.p s.outBuf fmt

/-- A step that goes on. -/
def Answers (o : Host.Outcome State Fault Refusal) : Prop := ∃ t, o = .next t

end Sys2Proof.Safety
end

