-- ==== Sys2Proof/Certificates/Slice0/Obligations.lean ====
section
/-! DEFINITION. The statements for the provers: what the rules of spec/ say of commands, steps and runs. -/

open Sys2Proof Sys2Proof.Machine Sys2Proof.Safety

/-- The example encodings of 30_encoding.md R100, written out as the spec gives them. -/
def Obligations.SpecExampleWordsDecode : Prop :=
  decode 0x00000001 = .ok .detect ∧
  decode 0x00000002 = .ok .load ∧
  decode 0x00000003 = .ok .save ∧
  decode 0x000002B4 = .ok (.get 3 10) ∧
  decode 0x008000D5 = .ok (.set 1 3 128) ∧
  decode 0xFFFF0005 = .ok (.set 0 0 0xFFFF) ∧
  decodeTableWord 32 0x00000004 = some (.get 0 0) ∧
  decodeTableWord 32 0x00000005 = some (.set 0 0 0)

/-- Decode and encode agree (30_encoding.md R91, R97). -/
def Obligations.EncodedCommandDecodesBack : Prop :=
  ∀ i : Instr, i.WellFormed → decode (encode i) = .ok i

/-- The other direction of the round trip (30_encoding.md R92, R97). -/
def Obligations.DecodedWordEncodesBack : Prop :=
  ∀ (w : Word) (i : Instr), decode w = .ok i → i.WellFormed ∧ encode i = w

/-- 30_encoding.md R96, the grounds of R95 said on the bits of the word (Safety.IllegalWord). -/
def Obligations.EveryWordIsACommandOrIllegal : Prop :=
  ∀ w : Word,
    ((∃ e, decode w = .error e) ↔ IllegalWord w) ∧
    (¬ IllegalWord w ↔ ∃ i : Instr, i.WellFormed ∧ encode i = w)

/-- 30_encoding.md R95 and 60_exceptions.md R201; CMD holds the word written (10_state.md R29). -/
def Obligations.IllegalWordRaisesIllegalCommand : Prop :=
  ∀ (s : State) (w : Word) (rest : List Event),
    s.events = commandWrite s.cfg.p w :: rest → IllegalWord w →
    step s = .next { s with
        events := rest, cmd := w, err := .illegalCommand, errVoice := 0, errCtrl := 0, errFound := 0, errValue := 0 }

/-- A host write to CMD stores the word and starts the command it encodes (10_state.md R29, 20_memory.md R75). -/
def Obligations.StepRunsTheCommandWritten : Prop :=
  ∀ (s : State) (w : Word) (rest : List Event) (i : Instr),
    s.events = commandWrite s.cfg.p w :: rest → decode w = .ok i →
    step s = exec i { s with events := rest, cmd := w }

/-- The engine executes nothing until the host acts (70_reset_and_hazards.md R231), and each access is complete before
the next (20_memory.md R75); idling is the model's choice of log 1. -/
def Obligations.StepTakesExactlyOneEvent : Prop :=
  ∀ s : State,
    (s.events = [] → step s = .next s) ∧
    (∀ (e : Event) (rest : List Event) (t : State),
      s.events = e :: rest → step s = .next t → t.events = rest ∧ t.cfg = s.cfg)

/-- 20_memory.md R73, with the window of R70. R73 says only that such an access is refused: the names, reservedOffset
whatever the width, and the one event `otherWidth`, whose width n stands for one that is neither 8 nor 32, are the
model's choice (log 6). -/
def Obligations.AccessesOutsideTheProtocolAreRefused : Prop :=
  ∀ (s : State) (rest : List Event) (off : Nat) (w : Word) (b : Byte) (n : Nat),
    let p := s.cfg.p
    let a := p.hostBase + off
    ((0x24 ≤ off ∧ off < 0x100) ∨ (0x100 + p.inCap ≤ off ∧ off < 0x200) ∨ (0x200 + p.outCap ≤ off ∧ off < 0x300) →
      ∀ e ∈ [Event.wr32 a w, .rd32 a, .wr8 a b, .rd8 a, .otherWidth n a],
        s.events = e :: rest → step s = .refused (.reservedOffset off)) ∧
    (off < 0x24 → ∀ e ∈ [Event.wr8 a b, .rd8 a, .otherWidth n a],
        s.events = e :: rest → step s = .refused (.registerAccess off)) ∧
    (off < 0x24 → off % 4 ≠ 0 → ∀ e ∈ [Event.wr32 a w, .rd32 a],
        s.events = e :: rest → step s = .refused (.registerAccess off)) ∧
    ((0x100 ≤ off ∧ off < 0x100 + p.inCap) ∨ (0x200 ≤ off ∧ off < 0x200 + p.outCap) →
      ∀ e ∈ [Event.wr32 a w, .rd32 a, .otherWidth n a],
        s.events = e :: rest → step s = .refused (.bufferAccess off))

/-- Every access permitted by the register and window maps is permitted at all times (60_exceptions.md R215,
20_memory.md R70, R73); log 6 for accesses outside the window. -/
def Obligations.ProtocolEventsAnswer : Prop :=
  ∀ (s : State) (e : Event) (rest : List Event), s.events = e :: rest →
    (Answers (step s) ↔ InProtocol s.cfg.p e) ∧
    (¬ InProtocol s.cfg.p e → ∃ r, step s = .refused r)

/-- Errors end their command only (60_exceptions.md R206, R209), and a run ends after the host's last operation
(70_reset_and_hazards.md R241). -/
def Obligations.ProtocolRunNeverStops : Prop :=
  ∀ (s : State) (k : Nat), (∀ e ∈ s.events, InProtocol s.cfg.p e) →
    ∃ t : State, Host.Core.run Sys2Proof.core k s = .next t

/-- The fields of 10_state.md R30 to R37 and the codes of 60_exceptions.md R200. -/
def Obligations.RegisterWordsAreMadeOfTheirFields : Prop :=
  ∀ s : State,
    (regRead s .status).toNat
      = (match s.err with
          | .ok => 0 | .malformedRecord => 1 | .markerMismatch => 2 | .outOfRange => 3
          | .sourceUnavailable => 4 | .illegalCommand => 5 | .noKit => 6)
        + (if s.kitValid then 16 else 0) + (if s.format = .format2 then 32 else 0) ∧
    (regRead s .errInfo).toNat = s.errVoice.toNat + 256 * s.errCtrl.toNat ∧
    (regRead s .srcCtrl).toNat = (if s.srcErr then 1 else 0) ∧
    (regRead s .inLen).toNat = s.inLen.toNat ∧
    (regRead s .outLen).toNat = s.outLen.toNat ∧
    (regRead s .errValue).toNat = s.errValue.toNat ∧
    regRead s .cmd = s.cmd ∧ regRead s .result = s.result ∧ regRead s .errFound = s.errFound

/-- 10_state.md R38, with the reserved bits of R30 and R32 to R37. -/
def Obligations.ReadOnlyRegistersAndReservedBitsIgnoreWrites : Prop :=
  ∀ (s : State) (w : Word) (rest : List Event),
    (∀ off ∈ [0x04, 0x08, 0x10, 0x18, 0x1C, 0x20], s.events = .wr32 (s.cfg.p.hostBase + off) w :: rest →
      step s = .next { s with events := rest }) ∧
    (s.events = .wr32 (s.cfg.p.hostBase + 0x0C) w :: rest →
      step s = .next { s with events := rest, inLen := BitVec.ofNat 16 (w.toNat % 65536) }) ∧
    (s.events = .wr32 (s.cfg.p.hostBase + 0x14) w :: rest →
      step s = .next { s with events := rest, srcErr := decide (w.toNat % 2 = 1) }) ∧
    (regRead s .status).toNat < 64 ∧ (regRead s .inLen).toNat < 65536 ∧ (regRead s .outLen).toNat < 65536 ∧
    (regRead s .srcCtrl).toNat < 2 ∧ (regRead s .errValue).toNat < 65536 ∧
    (regRead s .errInfo).toNat < 4096 ∧ (regRead s .errInfo).toNat % 256 < 4

/-- No read has a side effect (20_memory.md R67); the map of 10_state.md R29; the list of values read is the model's
own (log 7). -/
def Obligations.HostReadsReturnAndChangeNothing : Prop :=
  ∀ (s : State) (rest : List Event),
    (∀ x ∈ [((0x00 : Nat), Reg.cmd), (0x04, .status), (0x08, .result), (0x0C, .inLen), (0x10, .outLen),
            (0x14, .srcCtrl), (0x18, .errInfo), (0x1C, .errFound), (0x20, .errValue)],
      s.events = .rd32 (s.cfg.p.hostBase + x.1) :: rest →
      step s = .next { s with events := rest, reads := s.reads ++ [.word (regRead s x.2)] }) ∧
    (∀ a, a < s.cfg.p.inCap → s.events = .rd8 (s.cfg.p.hostBase + 0x100 + a) :: rest →
      step s = .next { s with events := rest, reads := s.reads ++ [.byte (Memory.read s.inBuf a)] }) ∧
    (∀ a, a < s.cfg.p.outCap → s.events = .rd8 (s.cfg.p.hostBase + 0x200 + a) :: rest →
      step s = .next { s with events := rest, reads := s.reads ++ [.byte (Memory.read s.outBuf a)] })

/-- 20_memory.md R71; its last sentence is said of the step that takes a reset (the bytes a reset event carries: log
5). -/
def Obligations.InputBufferIsHostMemory : Prop :=
  ∀ (s : State) (rest : List Event) (a : Nat) (b : Byte), a < s.cfg.p.inCap →
    (s.events = .wr8 (s.cfg.p.hostBase + 0x100 + a) b :: rest →
      ∃ t, step s = .next t ∧ t = { s with events := rest, inBuf := t.inBuf } ∧
        Memory.read t.inBuf a = b ∧ ∀ x, x ≠ a → Memory.read t.inBuf x = Memory.read s.inBuf x) ∧
    (s.events = .rd8 (s.cfg.p.hostBase + 0x100 + a) :: rest →
      ∃ t, step s = .next t ∧ t.reads = s.reads ++ [.byte (Memory.read s.inBuf a)]) ∧
    (∃ d t, step { s with events := .reset d :: rest } = .next t ∧ Memory.read t.inBuf a = b)

/-- 20_memory.md R72; its last sentence is said of the step that takes a reset (the bytes a reset event carries: log
5). -/
def Obligations.OutputBufferIsReadOnlyToTheHost : Prop :=
  ∀ (s : State) (rest : List Event) (a : Nat) (b : Byte), a < s.cfg.p.outCap →
    (s.events = .rd8 (s.cfg.p.hostBase + 0x200 + a) :: rest →
      ∃ t, step s = .next t ∧ t.reads = s.reads ++ [.byte (Memory.read s.outBuf a)]) ∧
    (s.events = .wr8 (s.cfg.p.hostBase + 0x200 + a) b :: rest → step s = .next { s with events := rest }) ∧
    (∃ d t, step { s with events := .reset d :: rest } = .next t ∧ Memory.read t.outBuf a = b)

/-- 70_reset_and_hazards.md R230 with the values of 10_state.md R41. That a reset event carries the bytes the stores
are left with is how the model says 'unspecified' (log 5). -/
def Obligations.ResetZeroesRegistersAndLeavesStoresOpen : Prop :=
  (∀ (s : State) (d : PowerUp) (rest : List Event), s.events = .reset d :: rest →
    ∃ t, step s = .next t ∧ (∀ r, regRead t r = 0) ∧ t.err = .ok ∧ t.kitValid = false ∧ t.format = .format1 ∧
      t.srcErr = false ∧ t.inLen = 0 ∧ t.outLen = 0) ∧
  (∀ inB outB vsB hsB : Nat → Byte, ∃ d : PowerUp, ∀ (s : State) (rest : List Event), s.events = .reset d :: rest →
    ∃ t, step s = .next t ∧
      (∀ a, a < s.cfg.p.inCap → Memory.read t.inBuf a = inB a) ∧
      (∀ a, a < s.cfg.p.outCap → Memory.read t.outBuf a = outB a) ∧
      (∀ v o, o < 32 → Memory.read t.vs (vsAddr v o) = vsB (vsAddr v o)) ∧
      (∀ i, i < 59 → Memory.read t.hs i = hsB i))

/-- 10_state.md R41 and the values of 00_scope.md R9; idling is log 1. -/
def Obligations.ResetStateIsEmptyAndIdle : Prop :=
  (∀ r, regRead State.reset r = 0) ∧ State.reset.kitValid = false ∧ State.reset.format = .format1 ∧
  total State.reset.cfg.p .format1 = 165 ∧ total State.reset.cfg.p .format2 = 169 ∧
  hdrLen State.reset.cfg.p .format1 = 57 ∧ hdrLen State.reset.cfg.p .format2 = 59 ∧
  State.reset.cfg.p.inCap = 256 ∧ State.reset.cfg.p.outCap = 256 ∧
  allControls.map (ctrlOff State.reset.cfg.p) = [0, 1, 2, 3, 8, 9, 10, 11, 12, 13, 14] ∧
  step State.reset = .next State.reset

/-- The base of the invariants kept by every step. -/
def Obligations.ConditionsHoldAtReset : Prop :=
  StoresCanonical State.reset ∧ MarkersHeld State.reset ∧ TailsZero State.reset ∧
  DiagnosticsMatch State.reset ∧ OutputIsRecord State.reset

/-- The completing case of 40_format_detector.md R125. -/
def Obligations.DetectCompletes : Prop :=
  ∀ (s : State) (fmt : Format),
    s.srcErr = false → s.inLen.toNat = total s.cfg.p fmt → (∀ v, MarkerAt s.cfg.p s.inBuf fmt v) →
    exec .detect s = .next { s with
      result := (match fmt with | .format1 => 0 | .format2 => 1), err := .ok, errVoice := 0, errCtrl := 0, errFound := 0, errValue := 0 }

/-- 60_exceptions.md R203; the host's write of SRC_ERR is in ReadOnlyRegistersAndReservedBitsIgnoreWrites. -/
def Obligations.SourceErrorIsRaisedFirst : Prop :=
  ∀ s : State,
    (s.srcErr = true →
      exec .detect s = .next { s with
          err := .sourceUnavailable, errVoice := 0, errCtrl := 0, errFound := 0, errValue := 0 } ∧
      exec .load s = .next { s with
          err := .sourceUnavailable, errVoice := 0, errCtrl := 0, errFound := 0, errValue := 0 }) ∧
    (∀ (i : Instr) (b : Bool) (t : State), i ≠ .detect → i ≠ .load →
      exec i s = .next t → exec i { s with srcErr := b } = .next { t with srcErr := b })

/-- 60_exceptions.md R202, the length stage of 40_format_detector.md R121. -/
def Obligations.LengthMismatchRaisesMalformedRecord : Prop :=
  ∀ s : State, s.srcErr = false →
    s.inLen.toNat ≠ total s.cfg.p .format1 → s.inLen.toNat ≠ total s.cfg.p .format2 →
    exec .detect s = .next { s with
        err := .malformedRecord, errVoice := 0, errCtrl := 0, errFound := 0, errValue := s.inLen } ∧
    exec .load s = .next { s with
        err := .malformedRecord, errVoice := 0, errCtrl := 0, errFound := 0, errValue := s.inLen }

/-- 60_exceptions.md R204, the marker stage of 40_format_detector.md R122. -/
def Obligations.LowestBadMarkerIsReported : Prop :=
  ∀ (s : State) (fmt : Format) (v : Voice), s.srcErr = false → s.inLen.toNat = total s.cfg.p fmt →
    ¬ MarkerAt s.cfg.p s.inBuf fmt v → (∀ u, u.toNat < v.toNat → MarkerAt s.cfg.p s.inBuf fmt u) →
    exec .detect s = .next { s with
        err := .markerMismatch, errVoice := v, errCtrl := 0, errFound := foundWord s.cfg.p s.inBuf fmt v, errValue := 0 } ∧
    exec .load s = .next { s with
        err := .markerMismatch, errVoice := v, errCtrl := 0, errFound := foundWord s.cfg.p s.inBuf fmt v, errValue := 0 }

/-- Corruption detection, property S6 of 95_test_vectors.md. -/
def Obligations.ChangedMarkerByteIsDetected : Prop :=
  ∀ (s t : State) (fmt : Format) (v : Voice) (k : Nat) (b : Byte),
    exec .detect s = .next t → t.err = .ok → s.inLen.toNat = total s.cfg.p fmt →
    k < 4 → b ≠ Memory.read s.inBuf (vbase s.cfg.p v fmt + 4 + k) →
    let m := Memory.write s.inBuf (vbase s.cfg.p v fmt + 4 + k) b
    exec .load { s with inBuf := m } = .next { s with
      inBuf := m
      err := .markerMismatch, errVoice := v, errCtrl := 0, errFound := foundWord s.cfg.p m fmt v, errValue := 0 }

/-- The first sentence of 40_format_detector.md R127. -/
def Obligations.DetectAndLoadAgree : Prop :=
  ∀ s : State, ∃ t u, exec .detect s = .next t ∧ exec .load s = .next u ∧
    ((t.err ≠ .ok ∧ u = t) ∨
     (t.err = .ok ∧ u.err = .ok ∧ u.result = t.result ∧
       t.result = (match u.format with | .format1 => 0 | .format2 => 1)))

/-- The completing case of 42_kit_codec.md R170 to R172, with VoiceDecode of 41_voice_codec.md R142, R143. -/
def Obligations.LoadReplacesTheKit : Prop :=
  ∀ (s : State) (fmt : Format),
    s.srcErr = false → s.inLen.toNat = total s.cfg.p fmt → (∀ v, MarkerAt s.cfg.p s.inBuf fmt v) →
    ∃ t, exec .load s = .next t ∧
      t = { s with
        kitValid := true, format := fmt, result := (match fmt with | .format1 => 0 | .format2 => 1),
        hs := t.hs, vs := t.vs, err := .ok, errVoice := 0, errCtrl := 0, errFound := 0, errValue := 0 } ∧
      (∀ i, i < 59 → Memory.read t.hs i = if i < hdrLen s.cfg.p fmt then Memory.read s.inBuf i else 0) ∧
      (∀ (v : Voice) (o : Nat), o < 32 → Memory.read t.vs (vsAddr v o)
        = if o < vlen v fmt then Memory.read s.inBuf (vbase s.cfg.p v fmt + o) else 0)

/-- 42_kit_codec.md R173. -/
def Obligations.FailedLoadKeepsTheKit : Prop :=
  ∀ s t : State, exec .load s = .next t → t.err ≠ .ok → SameKit s t

/-- 40_format_detector.md R126. -/
def Obligations.DetectWritesNoKitState : Prop :=
  ∀ s t : State, exec .detect s = .next t →
    SameKit s t ∧ t.inBuf = s.inBuf ∧ t.inLen = s.inLen ∧ t.outBuf = s.outBuf ∧ t.outLen = s.outLen

/-- The completing case of 41_voice_codec.md R150; no range check is made. -/
def Obligations.GetReturnsTheControlByte : Prop :=
  ∀ (s : State) (v : Voice) (c : Control), s.kitValid = true →
    exec (.get v (controlCode c)) s = .next { s with
      result := BitVec.ofNat 32 (Memory.read s.vs (vsAddr v (ctrlOff s.cfg.p c))).toNat, err := .ok, errVoice := 0, errCtrl := 0, errFound := 0, errValue := 0 }

/-- The completing case of 41_voice_codec.md R152. -/
def Obligations.SetWritesOneControlByte : Prop :=
  ∀ (s : State) (v : Voice) (c : Control) (imm : Half), s.kitValid = true → InRange c imm.toInt →
    ∃ t, exec (.set v (controlCode c) imm) s = .next t ∧
      t = { s with vs := t.vs, err := .ok, errVoice := 0, errCtrl := 0, errFound := 0, errValue := 0 } ∧
      ((Memory.read t.vs (vsAddr v (ctrlOff s.cfg.p c))).toNat : Int) = imm.toInt ∧
      ∀ a, a ≠ vsAddr v (ctrlOff s.cfg.p c) → Memory.read t.vs a = Memory.read s.vs a

/-- 60_exceptions.md R208, and NO_KIT before OUT_OF_RANGE (R207). -/
def Obligations.NoKitIsRaisedWithoutAKit : Prop :=
  ∀ (s : State) (v : Voice) (c : Control) (imm : Half), s.kitValid = false →
    exec (.get v (controlCode c)) s = .next { s with
        err := .noKit, errVoice := 0, errCtrl := 0, errFound := 0, errValue := 0 } ∧
    exec (.set v (controlCode c) imm) s = .next { s with
        err := .noKit, errVoice := 0, errCtrl := 0, errFound := 0, errValue := 0 } ∧
    exec .save s = .next { s with err := .noKit, errVoice := 0, errCtrl := 0, errFound := 0, errValue := 0 }

/-- 30_encoding.md R95 and the priority of 60_exceptions.md R207, on terms the decoder refuses already (log 9). -/
def Obligations.UnnamedControlIsAnIllegalCommand : Prop :=
  ∀ (s : State) (v : Voice) (c : BitVec 4) (imm : Half), 11 ≤ c.toNat →
    exec (.get v c) s = .next { s with
        err := .illegalCommand, errVoice := 0, errCtrl := 0, errFound := 0, errValue := 0 } ∧
    exec (.set v c imm) s = .next { s with
        err := .illegalCommand, errVoice := 0, errCtrl := 0, errFound := 0, errValue := 0 }

/-- 60_exceptions.md R205, the order of 41_voice_codec.md R147 and 60_exceptions.md R207. -/
def Obligations.OutOfRangeNamesVoiceControlAndValue : Prop :=
  ∀ (s : State) (v : Voice) (c : Control), s.kitValid = true →
    (∀ imm : Half, ¬ InRange c imm.toInt →
      exec (.set v (controlCode c) imm) s
        = .next { s with
            err := .outOfRange, errVoice := v, errCtrl := controlCode c, errFound := 0, errValue := imm }) ∧
    (FirstBadControl s v c →
      exec .save s = .next { s with
        err := .outOfRange, errVoice := v, errCtrl := controlCode c, errFound := 0,
        errValue := BitVec.ofNat 16 (Memory.read s.vs (vsAddr v (ctrlOff s.cfg.p c))).toNat })

/-- 41_voice_codec.md R145. -/
def Obligations.RangeTableIsTheSpecs : Prop :=
  ∀ (c : Control) (val : Int), rangeOK c val = true ↔ InRange c val

/-- The table of 10_state.md R22 and the range of 30_encoding.md R94. -/
def Obligations.ControlIdentifiersAreTheSpecs : Prop :=
  (List.range 16).map (fun n => controlOfCode (BitVec.ofNat 4 n))
    = [some .algo, some .mode, some .vcf, some .tune, some .param1, some .param2, some .fxSend, some .decay,
       some .cutoff, some .drive, some .level, none, none, none, none, none] ∧
  ∀ c : Control, controlOfCode (controlCode c) = some c

/-- 41_voice_codec.md R150 and R152 together, with the pairwise distinct offsets of 00_scope.md R9. -/
def Obligations.GetAfterSetReadsItBack : Prop :=
  ∀ (s t : State) (v u : Voice) (c d : Control) (imm : Half),
    exec (.set v (controlCode c) imm) s = .next t → t.err = .ok →
    exec (.get u (controlCode d)) t = .next { t with
      result := (if u = v ∧ d = c then BitVec.ofNat 32 imm.toNat
        else BitVec.ofNat 32 (Memory.read s.vs (vsAddr u (ctrlOff s.cfg.p d))).toNat), err := .ok, errVoice := 0, errCtrl := 0, errFound := 0, errValue := 0 }

/-- 41_voice_codec.md R153. -/
def Obligations.OnlyLoadChangesBytesThatAreNoControl : Prop :=
  ∀ (i : Instr) (s t : State), i ≠ .load → exec i s = .next t →
    t.hs = s.hs ∧
    ∀ (v : Voice) (o : Nat), o < 32 → (∀ c, o ≠ ctrlOff s.cfg.p c) →
      Memory.read t.vs (vsAddr v o) = Memory.read s.vs (vsAddr v o)

/-- 10_state.md R25, R30, R42 and 42_kit_codec.md R172, over every step. -/
def Obligations.KitValidAndFormatChangeOnlyByLoadOrReset : Prop :=
  ∀ (s t : State) (e : Event) (rest : List Event), s.events = e :: rest → step s = .next t →
    (t.kitValid ≠ s.kitValid ∨ t.format ≠ s.format →
      (∃ d, e = .reset d) ∨ (e = commandWrite s.cfg.p 2 ∧ t.err = .ok ∧ t.kitValid = true)) ∧
    (s.kitValid = true → t.kitValid = false → ∃ d, e = .reset d)

/-- The completing case of 42_kit_codec.md R175, with VoiceEncode of 41_voice_codec.md R146 and 20_memory.md R69. -/
def Obligations.SaveWritesTheRecord : Prop :=
  ∀ s : State, s.kitValid = true → (∀ v c, ¬ BadControl s v c) →
    let p := s.cfg.p
    ∃ t, exec .save s = .next t ∧
      t = { s with
          outBuf := t.outBuf, outLen := t.outLen, result := t.result
          err := .ok, errVoice := 0, errCtrl := 0, errFound := 0, errValue := 0 } ∧
      t.outLen.toNat = total p s.format ∧ t.result.toNat = total p s.format ∧
      (∀ i, i < hdrLen p s.format → Memory.read t.outBuf i = Memory.read s.hs i) ∧
      (∀ v, MarkerAt p t.outBuf s.format v) ∧
      (∀ (v : Voice) (o : Nat), o < vlen v s.format → o < 4 ∨ 8 ≤ o →
        Memory.read t.outBuf (vbase p v s.format + o) = Memory.read s.vs (vsAddr v o)) ∧
      (∀ a, total p s.format ≤ a → Memory.read t.outBuf a = Memory.read s.outBuf a)

/-- 42_kit_codec.md R176. -/
def Obligations.SaveKeepsTheKit : Prop :=
  ∀ s t : State, exec .save s = .next t →
    SameKit s t ∧ (t.err ≠ .ok → t.outBuf = s.outBuf ∧ t.outLen = s.outLen ∧ t.result = s.result)

/-- 20_memory.md R69. -/
def Obligations.SaveWritesExactlyItsRecordsBytes : Prop :=
  ∀ (s t u : State) (m : Memory), exec .save s = .next t → exec .save { s with outBuf := m } = .next u →
    (t.err = .ok →
      (∀ a, a < total s.cfg.p s.format → Memory.read u.outBuf a = Memory.read t.outBuf a) ∧
      (∀ a, total s.cfg.p s.format ≤ a → Memory.read t.outBuf a = Memory.read s.outBuf a)) ∧
    (t.err ≠ .ok → t.outBuf = s.outBuf)

/-- 42_kit_codec.md R178, without the invariant that the store holds the marker (10_state.md R26). -/
def Obligations.SavedRecordCarriesTheMarkers : Prop :=
  ∀ s t : State, exec .save s = .next t → t.err = .ok →
    ∀ v, MarkerAt s.cfg.p t.outBuf s.format v

/-- 60_exceptions.md R206, with the diagnostics of R200 (Safety.DiagnosticsMatch). -/
def Obligations.ErrorsArePrecise : Prop :=
  ∀ (i : Instr) (s t : State), exec i s = .next t →
    DiagnosticsMatch t ∧
    ((t.err = .ok ∧ t.errVoice = 0 ∧ t.errCtrl = 0 ∧ t.errFound = 0 ∧ t.errValue = 0) ∨
     (t.err ≠ .ok ∧ t = { s with
        err := t.err, errVoice := t.errVoice, errCtrl := t.errCtrl, errFound := t.errFound, errValue := t.errValue }))

/-- 60_exceptions.md R209. -/
def Obligations.RepeatedCommandRaisesTheSameError : Prop :=
  ∀ (i : Instr) (s t : State), exec i s = .next t → t.err ≠ .ok → exec i t = .next t

/-- A command either completes or raises exactly one error (00_scope.md R14). -/
def Obligations.EveryCommandAnswers : Prop :=
  ∀ (i : Instr) (s : State), Answers (exec i s)

/-- The 'written by the engine' column of 10_state.md R29, 20_memory.md R79, 70_reset_and_hazards.md R237, R238. -/
def Obligations.CommandsKeepTheHostsState : Prop :=
  ∀ (i : Instr) (s t : State), exec i s = .next t →
    t.cfg = s.cfg ∧ t.cmd = s.cmd ∧ t.inLen = s.inLen ∧ t.srcErr = s.srcErr ∧ t.inBuf = s.inBuf ∧
    t.events = s.events ∧ t.reads = s.reads ∧
    (i ≠ .save → t.outBuf = s.outBuf ∧ t.outLen = s.outLen) ∧
    (i = .detect ∨ i = .save ∨ (∃ v c, i = .get v c) → SameKit s t) ∧
    ((∃ v c imm, i = .set v c imm) → t.result = s.result ∧ t.hs = s.hs ∧ t.kitValid = s.kitValid ∧ t.format = s.format)

/-- 20_memory.md R68. -/
def Obligations.CommandsReadOnlyTheirPartOfInput : Prop :=
  ∀ (s t : State) (m : Memory),
    (∀ fmt, total s.cfg.p fmt ≤ s.cfg.p.inCap) ∧
    (exec .detect s = .next t →
      (s.srcErr = false → ∀ fmt, s.inLen.toNat = total s.cfg.p fmt → ∀ (v : Voice) (k : Nat), k < 4 →
        Memory.read m (vbase s.cfg.p v fmt + 4 + k) = Memory.read s.inBuf (vbase s.cfg.p v fmt + 4 + k)) →
      exec .detect { s with inBuf := m } = .next { t with inBuf := m }) ∧
    (exec .load s = .next t →
      (s.srcErr = false → ∀ fmt, s.inLen.toNat = total s.cfg.p fmt →
        (∀ (v : Voice) (k : Nat), k < 4 →
          Memory.read m (vbase s.cfg.p v fmt + 4 + k) = Memory.read s.inBuf (vbase s.cfg.p v fmt + 4 + k)) ∧
        ((∀ v, MarkerAt s.cfg.p s.inBuf fmt v) → ∀ a, a < total s.cfg.p fmt →
          Memory.read m a = Memory.read s.inBuf a)) →
      exec .load { s with inBuf := m } = .next { t with inBuf := m }) ∧
    (∀ i : Instr, i ≠ .detect → i ≠ .load → exec i s = .next t →
      exec i { s with inBuf := m } = .next { t with inBuf := m })

/-- 10_state.md R23, R24 and R41: such bytes are never read by any command, and unobservable while KIT_VALID = 0. -/
def Obligations.UnheldStoreBytesAreNeverRead : Prop :=
  ∀ (i : Instr) (s t : State) (vs' hs' : Memory),
    (s.kitValid = true →
      (∀ (v : Voice) (o : Nat), o < vlen v s.format → Memory.read vs' (vsAddr v o) = Memory.read s.vs (vsAddr v o)) ∧
      (∀ k, k < hdrLen s.cfg.p s.format → Memory.read hs' k = Memory.read s.hs k)) →
    exec i s = .next t →
    ∃ vs'' hs'', exec i { s with vs := vs', hs := hs' } = .next { t with vs := vs'', hs := hs'' } ∧
      (t.kitValid = true →
        (∀ (v : Voice) (o : Nat), o < vlen v t.format → Memory.read vs'' (vsAddr v o) = Memory.read t.vs (vsAddr v o)) ∧
        (∀ k, k < hdrLen t.cfg.p t.format → Memory.read hs'' k = Memory.read t.hs k))

/-- 42_kit_codec.md R179, with everything the host may do between the LOAD and the SAVE. -/
def Obligations.LoadThenSaveGivesTheRecordBack : Prop :=
  ∀ (s t u : State) (fmt : Format) (k : Nat),
    exec .load s = .next t → t.err = .ok → s.inLen.toNat = total s.cfg.p fmt → TogglesInRange s.cfg.p s.inBuf fmt →
    (∀ e ∈ t.events.take k, LeavesKit t.cfg.p e) → Host.Core.run Sys2Proof.core k t = .next u →
    ∃ w, exec .save u = .next w ∧ w.err = .ok ∧ w.outLen = s.inLen ∧
      ∀ a, a < s.inLen.toNat → Memory.read w.outBuf a = Memory.read s.inBuf a

/-- 42_kit_codec.md R180, for runs in which no SET is issued after the LOAD. -/
def Obligations.UnrepairedToggleBlocksSave : Prop :=
  ∀ (s t u : State) (fmt : Format) (k : Nat),
    exec .load s = .next t → t.err = .ok → s.inLen.toNat = total s.cfg.p fmt → ¬ TogglesInRange s.cfg.p s.inBuf fmt →
    (∀ e ∈ t.events.take k, LeavesKit t.cfg.p e) → Host.Core.run Sys2Proof.core k t = .next u →
    ∃ (v : Voice) (c : Control) (b : Byte), (c = .algo ∨ c = .mode ∨ c = .vcf) ∧
      b = Memory.read s.inBuf (vbase s.cfg.p v fmt + ctrlOff s.cfg.p c) ∧ 2 < b.toNat ∧
      (∀ (x : Voice) (d : Control), (d = .algo ∨ d = .mode ∨ d = .vcf) →
        x.toNat < v.toNat ∨ (x = v ∧ (controlCode d).toNat < (controlCode c).toNat) →
        (Memory.read s.inBuf (vbase s.cfg.p x fmt + ctrlOff s.cfg.p d)).toNat ≤ 2) ∧
      exec .save u = .next { u with
        err := .outOfRange, errVoice := v, errCtrl := controlCode c, errFound := 0,
        errValue := BitVec.ofNat 16 b.toNat }

/-- 42_kit_codec.md R181, for SETs issued one after another; runSets issues them, replaceControls is the edited
record. SETs among other accesses are in SaveAfterInterleavedSetsReplacesExactlyThoseBytes. -/
def Obligations.SaveAfterSetsReplacesExactlyThoseBytes : Prop :=
  ∀ (s t : State) (fmt : Format) (sets : List (Voice × Control × Half)),
    exec .load s = .next t → t.err = .ok → s.inLen.toNat = total s.cfg.p fmt →
    (∀ x ∈ sets, InRange x.2.1 x.2.2.toInt) →
    TogglesInRange s.cfg.p (replaceControls s.cfg.p fmt s.inBuf sets) fmt →
    ∃ u w, runSets sets t = .next u ∧ exec .save u = .next w ∧ w.err = .ok ∧ w.outLen = s.inLen ∧
      ∀ a, a < s.inLen.toNat →
        Memory.read w.outBuf a = Memory.read (replaceControls s.cfg.p fmt s.inBuf sets) a

/-- The sizes of 20_memory.md R60; no command writes outside them (R69). -/
def Obligations.StepKeepsStoresCanonical : Prop :=
  ∀ s t : State, StoresCanonical s → step s = .next t → StoresCanonical t

/-- 10_state.md R26 as an invariant of every step; that SAVE does not rely on it is SavedRecordCarriesTheMarkers. -/
def Obligations.StepKeepsTheHeldMarkers : Prop :=
  ∀ s t : State, MarkersHeld s → step s = .next t → MarkersHeld t

/-- The zero fill of 41_voice_codec.md R142 and 42_kit_codec.md R171, kept by every step. -/
def Obligations.StepKeepsTailsZero : Prop :=
  ∀ s t : State, TailsZero s → step s = .next t → TailsZero t

/-- 10_state.md R35 to R37 and 60_exceptions.md R200, kept by every step. -/
def Obligations.StepKeepsDiagnosticsMatched : Prop :=
  ∀ s t : State, DiagnosticsMatch s → step s = .next t → DiagnosticsMatch t

/-- 10_state.md R33, 42_kit_codec.md R177, R178 and the stale output of 70_reset_and_hazards.md R236, kept by every
step. -/
def Obligations.StepKeepsTheOutputARecord : Prop :=
  ∀ s t : State, OutputIsRecord s → step s = .next t → OutputIsRecord t

/-- 20_memory.md R61, R62, R64 and 41_voice_codec.md R144. -/
def Obligations.RegionsTileTheRecord : Prop :=
  ∀ (cfg : Config) (fmt : Format),
    (∀ a, a < total cfg.p fmt ↔
      (a < hdrLen cfg.p fmt ∨ ∃ (v : Voice) (o : Nat), o < vlen v fmt ∧ a = vbase cfg.p v fmt + o)) ∧
    (∀ (v : Voice) (o : Nat), hdrLen cfg.p fmt ≤ vbase cfg.p v fmt + o) ∧
    (∀ (u v : Voice) (i j : Nat), i < vlen u fmt → j < vlen v fmt →
      vbase cfg.p u fmt + i = vbase cfg.p v fmt + j → u = v ∧ i = j) ∧
    (∀ c : Control, ctrlOff cfg.p c < 26 ∧ ¬ (4 ≤ ctrlOff cfg.p c ∧ ctrlOff cfg.p c ≤ 7))

/-- The legal values of 00_scope.md R8, R9 and the totals of 20_memory.md R63. -/
def Obligations.LegalParametersTellTheFormatsApart : Prop :=
  ∀ cfg : Config,
    total cfg.p .format1 ≠ total cfg.p .format2 ∧
    total cfg.p .format1 = cfg.p.hdrLenF1 + 3 * 26 + 30 ∧ total cfg.p .format2 = cfg.p.hdrLenF2 + 3 * 26 + 32 ∧
    (∀ fmt, total cfg.p fmt ≤ cfg.p.inCap ∧ total cfg.p fmt ≤ cfg.p.outCap) ∧
    (∀ fmt, vlen 0 fmt = 26 ∧ vlen 1 fmt = 26 ∧ vlen 2 fmt = 26) ∧ vlen 3 .format1 = 30 ∧ vlen 3 .format2 = 32

/-- 70_reset_and_hazards.md R232. That the parameters, the waiting events and the values read stay is the model's
choice (log 5): they are no state of the block. -/
def Obligations.ResetForgetsAllButParametersAndTheRunsRecord : Prop :=
  ∀ (s s' : State) (d : PowerUp) (rest rest' : List Event), s'.cfg = s.cfg →
    s.events = .reset d :: rest → s'.events = .reset d :: rest' →
    ∃ t, step s = .next t ∧ t.events = rest ∧ t.reads = s.reads ∧ t.cfg = s.cfg ∧
      step s' = .next { t with events := rest', reads := s'.reads }

/-- 42_kit_codec.md R181 over runs of the machine: `acts` is what the host does after the LOAD (Safety.Action),
completedSets the SETs in range among it, replaceControls the edited record. -/
def Obligations.SaveAfterInterleavedSetsReplacesExactlyThoseBytes : Prop :=
  ∀ (s t u : State) (fmt : Format) (acts : List Action) (rest : List Event),
    exec .load s = .next t → t.err = .ok → s.inLen.toNat = total s.cfg.p fmt →
    (∀ e, Action.other e ∈ acts → LeavesKit t.cfg.p e) → t.events = acts.map (Action.event t.cfg.p) ++ rest →
    Host.Core.run Sys2Proof.core acts.length t = .next u →
    TogglesInRange s.cfg.p (replaceControls s.cfg.p fmt s.inBuf (completedSets acts)) fmt →
    ∃ w, exec .save u = .next w ∧ w.err = .ok ∧ w.outLen = s.inLen ∧
      ∀ a, a < s.inLen.toNat →
        Memory.read w.outBuf a = Memory.read (replaceControls s.cfg.p fmt s.inBuf (completedSets acts)) a
end

