-- ==== Sys2Proof/Laws/Memory.lean ====
section
/-! SUPPORT. The laws of byte stores: what a read finds after a write, and that every operation keeps the canonical form. -/

namespace Sys2Proof.Laws

open Sys2Proof.Machine

/-! ### Reading -/

@[simp] theorem read_nil (a : Nat) : Memory.read [] a = Memory.unlisted := rfl

theorem read_cons (cell : Host.Cell) (m : Memory) (a : Nat) :
    Memory.read (cell :: m) a = if cell.1 = a then cell.2 else Memory.read m a := rfl

/-- An index no cell carries reads as an unlisted one. -/
theorem read_eq_unlisted_of_forall_ne {m : Memory} {a : Nat} (h : ∀ cell ∈ m, cell.1 ≠ a) :
    Memory.read m a = Memory.unlisted := by
  induction m with
  | nil => rfl
  | cons cell m ih =>
    rw [read_cons, if_neg (h cell (by simp))]
    exact ih fun c hc => h c (by simp [hc])

/-- A store in front of another answers for the indices it lists. -/
theorem read_append (m₁ m₂ : Memory) (a : Nat) :
    Memory.read (m₁ ++ m₂) a = if ∃ cell ∈ m₁, cell.1 = a then Memory.read m₁ a else Memory.read m₂ a := by
  induction m₁ with
  | nil => simp
  | cons cell m ih =>
    by_cases h : cell.1 = a
    · simp [read_cons, h]
    · simp [read_cons, ih, h]

/-- Dropping cells whose indices fail a test leaves the others readable. -/
theorem read_filter (m : Memory) (q : Nat → Bool) (a : Nat) :
    Memory.read (m.filter fun cell => q cell.1) a = if q a then Memory.read m a else Memory.unlisted := by
  induction m with
  | nil => simp
  | cons cell m ih =>
    by_cases hq : q cell.1 <;> by_cases h : cell.1 = a
    · subst h; simp [read_cons, hq]
    · simp [hq, read_cons, h, ih]
    · subst h; simp [hq, ih]
    · simp [hq, read_cons, h, ih]

/-- The indices that laid-out bytes list lie in their range. -/
theorem mem_cells {a : Nat} {bs : List Byte} {cell : Host.Cell} (h : cell ∈ Memory.cells a bs) :
    a ≤ cell.1 ∧ cell.1 < a + bs.length ∧ cell.2 ≠ Memory.unlisted := by
  induction bs generalizing a with
  | nil => simp [Memory.cells] at h
  | cons b bs ih =>
    unfold Memory.cells at h
    rw [List.length_cons]
    split at h
    · obtain ⟨h1, h2, h3⟩ := ih h
      exact ⟨by omega, by omega, h3⟩
    · rcases List.mem_cons.1 h with rfl | h
      · exact ⟨Nat.le_refl a, by show a < a + (bs.length + 1); omega, ‹_›⟩
      · obtain ⟨h1, h2, h3⟩ := ih h
        exact ⟨by omega, by omega, h3⟩

/-- Reading laid-out bytes. -/
theorem read_cells (a : Nat) (bs : List Byte) (x : Nat) :
    Memory.read (Memory.cells a bs) x = if a ≤ x then bs.getD (x - a) 0 else Memory.unlisted := by
  induction bs generalizing a with
  | nil => simp [Memory.cells, Memory.unlisted]
  | cons b bs ih =>
    unfold Memory.cells
    rcases Nat.lt_trichotomy x a with hx | rfl | hx
    · have h2 : ¬ a + 1 ≤ x := by omega
      have h3 : a ≠ x := by omega
      rw [if_neg (show ¬ a ≤ x by omega)]
      split <;> simp [read_cons, ih, h2, h3]
    · have h2 : ¬ x + 1 ≤ x := by omega
      split <;> simp_all [read_cons]
    · have h2 : a + 1 ≤ x := by omega
      have h3 : a ≠ x := by omega
      have h4 : x - a = (x - (a + 1)) + 1 := by omega
      rw [if_pos (show a ≤ x by omega)]
      split <;> simp [read_cons, ih, h2, h3, h4]

/-- Reading a store made of bytes. -/
@[simp] theorem read_ofBytes (bs : List Byte) (x : Nat) : Memory.read (Memory.ofBytes bs) x = bs.getD x 0 := by
  simp [Memory.ofBytes, read_cells]

/-- A read after a write of bytes: the byte written where one was, the old byte elsewhere. -/
theorem read_writeBytes (m : Memory) (a : Nat) (bs : List Byte) (x : Nat) :
    Memory.read (Memory.writeBytes m a bs) x
      = if a ≤ x ∧ x < a + bs.length then bs.getD (x - a) 0 else Memory.read m x := by
  have hbelow : Memory.read (m.filter fun cell => decide (cell.1 < a)) x
      = if x < a then Memory.read m x else Memory.unlisted := by
    simpa using read_filter m (fun k => decide (k < a)) x
  have habove : Memory.read (m.filter fun cell => decide (a + bs.length ≤ cell.1)) x
      = if a + bs.length ≤ x then Memory.read m x else Memory.unlisted := by
    simpa using read_filter m (fun k => decide (a + bs.length ≤ k)) x
  have hcells := read_cells a bs x
  unfold Memory.writeBytes
  rw [List.append_assoc, read_append, read_append]
  by_cases hlo : x < a
  · have hno : ¬ ∃ cell ∈ Memory.cells a bs, cell.1 = x := fun ⟨c, hc, he⟩ => by
      have := (mem_cells hc).1; omega
    rw [if_neg hno, habove, hbelow, if_pos hlo, if_neg (show ¬ (a ≤ x ∧ x < a + bs.length) by omega),
      if_neg (show ¬ a + bs.length ≤ x by omega)]
    split
    · rfl
    · rename_i hnone
      refine (read_eq_unlisted_of_forall_ne fun c hc he => hnone ⟨c, ?_, he⟩).symm
      exact List.mem_filter.2 ⟨hc, by simpa [he] using hlo⟩
  · have hno : ¬ ∃ cell ∈ m.filter fun cell => decide (cell.1 < a), cell.1 = x := fun ⟨c, hc, he⟩ => by
      have := (List.mem_filter.1 hc).2
      simp at this; omega
    rw [if_neg hno, habove, hcells, if_pos (show a ≤ x by omega)]
    by_cases hin : x < a + bs.length
    · rw [if_pos (show a ≤ x ∧ x < a + bs.length by omega), if_neg (show ¬ a + bs.length ≤ x by omega)]
      split
      · rfl
      · rename_i hnone
        have := read_eq_unlisted_of_forall_ne (m := Memory.cells a bs) (a := x) fun c hc he => hnone ⟨c, hc, he⟩
        rw [hcells, if_pos (show a ≤ x by omega)] at this
        exact this.symm
    · have hno : ¬ ∃ cell ∈ Memory.cells a bs, cell.1 = x := fun ⟨c, hc, he⟩ => by
        have := (mem_cells hc).2.1; omega
      rw [if_neg hno, if_pos (show a + bs.length ≤ x by omega), if_neg (show ¬ (a ≤ x ∧ x < a + bs.length) by omega)]

/-- A read after a write of one byte. -/
theorem read_write (m : Memory) (a : Nat) (b : Byte) (x : Nat) :
    Memory.read (Memory.write m a b) x = if x = a then b else Memory.read m x := by
  rw [Memory.write, read_writeBytes]
  by_cases h : x = a
  · subst h; simp
  · rw [if_neg h, if_neg (by simp only [List.length_singleton]; omega)]

@[simp] theorem read_write_same (m : Memory) (a : Nat) (b : Byte) : Memory.read (Memory.write m a b) a = b := by
  simp [read_write]

theorem read_write_ne {a x : Nat} (h : x ≠ a) (m : Memory) (b : Byte) :
    Memory.read (Memory.write m a b) x = Memory.read m x := by
  simp [read_write, h]

@[simp] theorem length_readBytes (m : Memory) (a n : Nat) : (Memory.readBytes m a n).length = n := by
  simp [Memory.readBytes]

/-- A byte of a range that was read. -/
theorem getD_readBytes (m : Memory) (a n k : Nat) (h : k < n) :
    (Memory.readBytes m a n).getD k 0 = Memory.read m (a + k) := by
  simp [Memory.readBytes, List.getD_eq_getElem?_getD, h]

/-- Two ranges that agree byte by byte read as the same bytes. -/
theorem readBytes_congr {m₁ m₂ : Memory} {a₁ a₂ n : Nat}
    (h : ∀ k < n, Memory.read m₁ (a₁ + k) = Memory.read m₂ (a₂ + k)) :
    Memory.readBytes m₁ a₁ n = Memory.readBytes m₂ a₂ n := by
  simp only [Memory.readBytes]
  exact List.map_congr_left fun k hk => h k (List.mem_range.1 hk)

/-! ### The canonical form -/

theorem wf_iff (size : Nat) (m : Memory) :
    Memory.wf size m = true ↔
      (m.Pairwise fun x y => x.1 < y.1) ∧ ∀ cell ∈ m, cell.1 < size ∧ cell.2 ≠ Memory.unlisted := by
  simp [Memory.wf]

@[simp] theorem wf_nil (size : Nat) : Memory.wf size [] = true := by simp [Memory.wf]

theorem pairwise_cells (a : Nat) (bs : List Byte) : (Memory.cells a bs).Pairwise fun x y => x.1 < y.1 := by
  induction bs generalizing a with
  | nil => simp [Memory.cells]
  | cons b bs ih =>
    unfold Memory.cells
    split
    · exact ih _
    · refine List.pairwise_cons.2 ⟨fun c hc => ?_, ih _⟩
      have := (mem_cells hc).1
      show a < c.1
      omega

/-- A store made of bytes is canonical. -/
theorem wf_ofBytes {size : Nat} {bs : List Byte} (h : bs.length ≤ size) : Memory.wf size (Memory.ofBytes bs) = true := by
  refine (wf_iff _ _).2 ⟨pairwise_cells 0 bs, fun c hc => ?_⟩
  have := mem_cells hc
  exact ⟨by omega, this.2.2⟩

/-- A write inside a store keeps it canonical. -/
theorem wf_writeBytes {size : Nat} {m : Memory} {a : Nat} {bs : List Byte} (hm : Memory.wf size m = true)
    (h : a + bs.length ≤ size) : Memory.wf size (Memory.writeBytes m a bs) = true := by
  obtain ⟨hp, hb⟩ := (wf_iff _ _).1 hm
  refine (wf_iff _ _).2 ⟨?_, fun c hc => ?_⟩
  · unfold Memory.writeBytes
    refine List.pairwise_append.2 ⟨List.pairwise_append.2 ⟨hp.filter _, pairwise_cells a bs, ?_⟩, hp.filter _, ?_⟩
    · intro x hx y hy
      have h1 := (List.mem_filter.1 hx).2
      have h2 := (mem_cells hy).1
      simp at h1; omega
    · intro x hx y hy
      have h2 := (List.mem_filter.1 hy).2
      simp at h2
      rcases List.mem_append.1 hx with hx | hx
      · have h1 := (List.mem_filter.1 hx).2
        simp at h1; omega
      · have h1 := (mem_cells hx).2.1
        omega
  · unfold Memory.writeBytes at hc
    rcases List.mem_append.1 hc with hc | hc
    · rcases List.mem_append.1 hc with hc | hc
      · exact hb c (List.mem_filter.1 hc).1
      · have := mem_cells hc
        exact ⟨by omega, this.2.2⟩
    · exact hb c (List.mem_filter.1 hc).1

theorem wf_write {size : Nat} {m : Memory} {a : Nat} {b : Byte} (hm : Memory.wf size m = true) (h : a < size) :
    Memory.wf size (Memory.write m a b) = true :=
  wf_writeBytes hm (by simp; omega)

/-- Canonical stores that read the same everywhere are the same data. -/
theorem wf_ext {size : Nat} {m₁ m₂ : Memory} (h₁ : Memory.wf size m₁ = true) (h₂ : Memory.wf size m₂ = true)
    (h : ∀ a, Memory.read m₁ a = Memory.read m₂ a) : m₁ = m₂ := by
  induction m₁ generalizing m₂ with
  | nil =>
    cases m₂ with
    | nil => rfl
    | cons c m =>
      obtain ⟨-, hb⟩ := (wf_iff _ _).1 h₂
      have := h c.1
      simp [read_cons] at this
      exact absurd this.symm (hb c (by simp)).2
  | cons c₁ m₁ ih =>
    cases m₂ with
    | nil =>
      obtain ⟨-, hb⟩ := (wf_iff _ _).1 h₁
      have := h c₁.1
      simp [read_cons] at this
      exact absurd this (hb c₁ (by simp)).2
    | cons c₂ m₂ =>
      obtain ⟨hp₁, hb₁⟩ := (wf_iff _ _).1 h₁
      obtain ⟨hp₂, hb₂⟩ := (wf_iff _ _).1 h₂
      obtain ⟨hlt₁, hp₁⟩ := List.pairwise_cons.1 hp₁
      obtain ⟨hlt₂, hp₂⟩ := List.pairwise_cons.1 hp₂
      have absent : ∀ {c : Host.Cell} {m : Memory} {a : Nat}, (∀ x ∈ m, c.1 < x.1) → a ≤ c.1 →
          Memory.read m a = Memory.unlisted := fun hlt ha =>
        read_eq_unlisted_of_forall_ne fun x hx he => by have := hlt x hx; omega
      have hkey : c₁.1 = c₂.1 := by
        rcases Nat.lt_trichotomy c₁.1 c₂.1 with hk | hk | hk
        · have := h c₁.1
          rw [read_cons, if_pos rfl, read_cons, if_neg (by omega), absent hlt₂ (by omega)] at this
          exact absurd this (hb₁ c₁ (by simp)).2
        · exact hk
        · have := h c₂.1
          rw [read_cons, if_neg (by omega), absent hlt₁ (by omega), read_cons, if_pos rfl] at this
          exact absurd this.symm (hb₂ c₂ (by simp)).2
      have hval : c₁.2 = c₂.2 := by
        have := h c₁.1
        rwa [read_cons, if_pos rfl, read_cons, if_pos hkey.symm] at this
      have hrest : m₁ = m₂ := by
        refine ih ((wf_iff _ _).2 ⟨hp₁, fun c hc => hb₁ c (by simp [hc])⟩)
          ((wf_iff _ _).2 ⟨hp₂, fun c hc => hb₂ c (by simp [hc])⟩) fun a => ?_
        by_cases ha : a = c₁.1
        · subst ha
          rw [absent hlt₁ (Nat.le_refl _), absent hlt₂ (by omega)]
        · have := h a
          rwa [read_cons, if_neg (fun e => ha e.symm), read_cons, if_neg (fun e => ha (by omega))] at this
      rw [hrest, Prod.ext hkey hval]

end Sys2Proof.Laws
end

