-- ==== Sys2Proof/Laws/Layout.lean ====
section
/-! SUPPORT. The record layout under legal parameters (00_scope.md R8, R9, 20_memory.md R61 to R64), the tables of controls,
and the keys of the voice store. -/

namespace Sys2Proof.Laws

open Sys2Proof.Machine

/-! ### What legality gives (00_scope.md R9) -/

theorem legal_lengths (cfg : Config) :
    47 ≤ cfg.p.hdrLenF1 ∧ cfg.p.hdrLenF1 ≤ 59 ∧ 47 ≤ cfg.p.hdrLenF2 ∧ cfg.p.hdrLenF2 ≤ 59 ∧
      cfg.p.hdrLenF2 + 2 ≠ cfg.p.hdrLenF1 := by
  have h := cfg.legal
  simp only [Params.legal, Bool.and_eq_true, decide_eq_true_eq] at h
  exact h.1.1.1.1

theorem legal_inCap (cfg : Config) :
    cfg.p.hdrLenF1 + 108 ≤ cfg.p.inCap ∧ cfg.p.hdrLenF2 + 110 ≤ cfg.p.inCap ∧ cfg.p.inCap ≤ 256 := by
  have h := cfg.legal
  simp only [Params.legal, Bool.and_eq_true, decide_eq_true_eq] at h
  exact h.1.2

theorem legal_outCap (cfg : Config) :
    cfg.p.hdrLenF1 + 108 ≤ cfg.p.outCap ∧ cfg.p.hdrLenF2 + 110 ≤ cfg.p.outCap ∧ cfg.p.outCap ≤ 256 := by
  have h := cfg.legal
  simp only [Params.legal, Bool.and_eq_true, decide_eq_true_eq] at h
  exact h.2

theorem ctrlOff_mem (p : Params) (c : Control) : ctrlOff p c ∈ p.ctrlOff.toList := by
  cases c <;> simp [ctrlOff, ControlOffsets.toList]

/-- A control offset lies in {0..3} or {8..25} (00_scope.md R9). -/
theorem ctrlOff_range (cfg : Config) (c : Control) :
    ctrlOff cfg.p c ≤ 3 ∨ (8 ≤ ctrlOff cfg.p c ∧ ctrlOff cfg.p c ≤ 25) := by
  have h := cfg.legal
  simp only [Params.legal, Bool.and_eq_true, decide_eq_true_eq, List.all_eq_true] at h
  exact h.1.1.2 _ (ctrlOff_mem cfg.p c)

theorem ctrlOff_lt (cfg : Config) (c : Control) : ctrlOff cfg.p c < 26 := by
  have := ctrlOff_range cfg c; omega

theorem controlCode_lt (p : Params) (c : Control) : (controlCode c).toNat < p.ctrlOff.toList.length := by
  cases c <;> simp [controlCode, ControlOffsets.toList]

theorem ctrlOff_eq_getElem (p : Params) (c : Control) :
    ctrlOff p c = p.ctrlOff.toList[(controlCode c).toNat]'(controlCode_lt p c) := by
  cases c <;> rfl

theorem controlCode_injective {c d : Control} (h : controlCode c = controlCode d) : c = d := by
  cases c <;> cases d <;> first | rfl | exact absurd h (by decide)

/-- Control offsets are pairwise distinct (00_scope.md R9). -/
theorem ctrlOff_injective (cfg : Config) {c d : Control} (h : ctrlOff cfg.p c = ctrlOff cfg.p d) : c = d := by
  have hl := cfg.legal
  simp only [Params.legal, Bool.and_eq_true, decide_eq_true_eq] at hl
  rw [ctrlOff_eq_getElem, ctrlOff_eq_getElem, hl.1.1.1.2.getElem_inj_iff] at h
  exact controlCode_injective (BitVec.eq_of_toNat_eq h)

/-! ### Lengths and totals -/

theorem vlen_cases (v : Voice) (fmt : Format) :
    (v = 3 ∧ vlen v fmt = lastVoiceLen fmt) ∨ (v ≠ 3 ∧ v.toNat < 3 ∧ vlen v fmt = 26) := by
  by_cases h : v = 3
  · exact .inl ⟨h, by rw [vlen, if_pos h]⟩
  · refine .inr ⟨h, ?_, by rw [vlen, if_neg h]⟩
    have h3 : v.toNat ≠ 3 := fun e => h (BitVec.eq_of_toNat_eq (by simpa using e))
    have := v.isLt
    omega

theorem lastVoiceLen_range (fmt : Format) : 30 ≤ lastVoiceLen fmt ∧ lastVoiceLen fmt ≤ 32 := by
  cases fmt <;> simp [lastVoiceLen]

theorem vlen_range (v : Voice) (fmt : Format) : 26 ≤ vlen v fmt ∧ vlen v fmt ≤ 32 := by
  have := lastVoiceLen_range fmt
  rcases vlen_cases v fmt with ⟨-, h⟩ | ⟨-, -, h⟩ <;> omega

@[simp] theorem vlen_three (fmt : Format) : vlen 3#2 fmt = lastVoiceLen fmt := by simp [vlen]

/-- A window ends inside the record. -/
theorem window_end_le_total (p : Params) (v : Voice) (fmt : Format) : vbase p v fmt + vlen v fmt ≤ total p fmt := by
  have := lastVoiceLen_range fmt
  simp only [total, vbase]
  rcases vlen_cases v fmt with ⟨rfl, h⟩ | ⟨-, hv, h⟩
  · rw [h]; simp
  · rw [h]; omega

theorem total_le_inCap (cfg : Config) (fmt : Format) : total cfg.p fmt ≤ cfg.p.inCap := by
  have := legal_inCap cfg
  cases fmt <;> simp [total, vlen, lastVoiceLen, hdrLen] <;> omega

theorem total_le_outCap (cfg : Config) (fmt : Format) : total cfg.p fmt ≤ cfg.p.outCap := by
  have := legal_outCap cfg
  cases fmt <;> simp [total, vlen, lastVoiceLen, hdrLen] <;> omega

theorem total_le_256 (cfg : Config) (fmt : Format) : total cfg.p fmt ≤ 256 := by
  have := total_le_inCap cfg fmt
  have := legal_inCap cfg
  omega

theorem hdrLen_range (cfg : Config) (fmt : Format) : 47 ≤ hdrLen cfg.p fmt ∧ hdrLen cfg.p fmt ≤ 59 := by
  have := legal_lengths cfg
  cases fmt <;> simp [hdrLen] <;> omega

/-- A record has one format (00_scope.md R9). -/
theorem total_injective (cfg : Config) {f g : Format} (h : total cfg.p f = total cfg.p g) : f = g := by
  have := legal_lengths cfg
  cases f <;> cases g <;> simp_all [total, vlen, lastVoiceLen, hdrLen]

/-- Windows of different voices do not meet. -/
theorem window_disjoint {p : Params} {fmt : Format} {u v : Voice} {i j : Nat} (hi : i < vlen u fmt) (hj : j < vlen v fmt)
    (h : vbase p u fmt + i = vbase p v fmt + j) : u = v ∧ i = j := by
  have := lastVoiceLen_range fmt
  simp only [vbase] at h
  rcases vlen_cases u fmt with ⟨rfl, hu⟩ | ⟨-, hu', hu⟩ <;> rcases vlen_cases v fmt with ⟨rfl, hv⟩ | ⟨-, hv', hv⟩
  · exact ⟨rfl, by omega⟩
  · simp only [BitVec.reduceToNat] at h; omega
  · simp only [BitVec.reduceToNat] at h; omega
  · have : u.toNat = v.toNat := by omega
    exact ⟨BitVec.eq_of_toNat_eq this, by omega⟩

/-! ### Keys of the voice store (log 8) -/

theorem vsAddr_injective {u v : Voice} {i j : Nat} (hi : i < 32) (hj : j < 32) (h : vsAddr u i = vsAddr v j) :
    u = v ∧ i = j := by
  simp only [vsAddr] at h
  exact ⟨BitVec.eq_of_toNat_eq (by omega), by omega⟩

theorem vsAddr_lt {v : Voice} {o : Nat} (h : o < 32) : vsAddr v o < 128 := by
  have := v.isLt
  simp only [vsAddr]; omega

/-! ### Voices and controls -/

@[simp] theorem mem_allVoices (v : Voice) : v ∈ allVoices := by
  have : ∀ v : Voice, v ∈ allVoices := by decide
  exact this v

@[simp] theorem mem_allControls (c : Control) : c ∈ allControls := by cases c <;> simp [allControls]

@[simp] theorem controlOfCode_controlCode (c : Control) : controlOfCode (controlCode c) = some c := by cases c <;> rfl

theorem controlOfCode_eq_some {c : BitVec 4} {ctl : Control} : controlOfCode c = some ctl ↔ c = controlCode ctl := by
  have : ∀ (c : BitVec 4), controlOfCode c = some ctl ↔ c = controlCode ctl := by cases ctl <;> decide
  exact this c

/-- A control identifier names a control exactly when it is at most 10 (30_encoding.md R94). -/
theorem controlOfCode_isSome (c : BitVec 4) : (controlOfCode c).isSome = true ↔ c.toNat ≤ 10 := by
  have : ∀ (c : BitVec 4), (controlOfCode c).isSome = true ↔ c.toNat ≤ 10 := by decide
  exact this c

theorem controlCode_le (c : Control) : (controlCode c).toNat ≤ 10 := by cases c <;> decide

@[simp] theorem length_marker : marker.length = 4 := rfl

/-! ### The bytes at the marker position -/

/-- The marker of a voice is good exactly when its four bytes are the marker's (41_voice_codec.md R141). -/
theorem markerOK_foundMarker_iff (p : Params) (buf : Memory) (v : Voice) (fmt : Format) :
    markerOK (foundMarker p buf v fmt) = true ↔
      ∀ k < 4, Memory.read buf (vbase p v fmt + 4 + k) = marker.getD k 0 := by
  rw [markerOK, decide_eq_true_eq]
  constructor
  · intro h k hk
    rw [← h, foundMarker, getD_readBytes _ _ _ _ hk]
  · intro h
    have h0 := h 0 (by omega)
    have h1 := h 1 (by omega)
    have h2 := h 2 (by omega)
    have h3 := h 3 (by omega)
    simp only [foundMarker, Memory.readBytes, show List.range 4 = [0, 1, 2, 3] from rfl, List.map_cons, List.map_nil,
      h0, h1, h2, h3]
    rfl

end Sys2Proof.Laws
end

