-- ==== Sys2Proof/Laws/State.lean ====
section
/-! SUPPORT. What each named update of State leaves in each field. -/

namespace Sys2Proof.Laws

open Sys2Proof.Machine

/-! ### Raising an error (60_exceptions.md R206) -/

@[simp] theorem raised_cfg (e : EngineError) (s : State) : (State.raised e s).cfg = s.cfg := rfl
@[simp] theorem raised_cmd (e : EngineError) (s : State) : (State.raised e s).cmd = s.cmd := rfl
@[simp] theorem raised_err (e : EngineError) (s : State) : (State.raised e s).err = errorCode e := rfl
@[simp] theorem raised_kitValid (e : EngineError) (s : State) : (State.raised e s).kitValid = s.kitValid := rfl
@[simp] theorem raised_format (e : EngineError) (s : State) : (State.raised e s).format = s.format := rfl
@[simp] theorem raised_result (e : EngineError) (s : State) : (State.raised e s).result = s.result := rfl
@[simp] theorem raised_inLen (e : EngineError) (s : State) : (State.raised e s).inLen = s.inLen := rfl
@[simp] theorem raised_outLen (e : EngineError) (s : State) : (State.raised e s).outLen = s.outLen := rfl
@[simp] theorem raised_srcErr (e : EngineError) (s : State) : (State.raised e s).srcErr = s.srcErr := rfl
@[simp] theorem raised_errVoice (e : EngineError) (s : State) : (State.raised e s).errVoice = errorVoice e := rfl
@[simp] theorem raised_errCtrl (e : EngineError) (s : State) : (State.raised e s).errCtrl = errorCtrl e := rfl
@[simp] theorem raised_errFound (e : EngineError) (s : State) : (State.raised e s).errFound = errorFound e := rfl
@[simp] theorem raised_errValue (e : EngineError) (s : State) : (State.raised e s).errValue = errorValue e := rfl
@[simp] theorem raised_vs (e : EngineError) (s : State) : (State.raised e s).vs = s.vs := rfl
@[simp] theorem raised_hs (e : EngineError) (s : State) : (State.raised e s).hs = s.hs := rfl
@[simp] theorem raised_inBuf (e : EngineError) (s : State) : (State.raised e s).inBuf = s.inBuf := rfl
@[simp] theorem raised_outBuf (e : EngineError) (s : State) : (State.raised e s).outBuf = s.outBuf := rfl
@[simp] theorem raised_events (e : EngineError) (s : State) : (State.raised e s).events = s.events := rfl
@[simp] theorem raised_reads (e : EngineError) (s : State) : (State.raised e s).reads = s.reads := rfl

/-! ### Completing a command (60_exceptions.md R206) -/

@[simp] theorem completed_cfg (s : State) : (State.completed s).cfg = s.cfg := rfl
@[simp] theorem completed_cmd (s : State) : (State.completed s).cmd = s.cmd := rfl
@[simp] theorem completed_err (s : State) : (State.completed s).err = .ok := rfl
@[simp] theorem completed_kitValid (s : State) : (State.completed s).kitValid = s.kitValid := rfl
@[simp] theorem completed_format (s : State) : (State.completed s).format = s.format := rfl
@[simp] theorem completed_result (s : State) : (State.completed s).result = s.result := rfl
@[simp] theorem completed_inLen (s : State) : (State.completed s).inLen = s.inLen := rfl
@[simp] theorem completed_outLen (s : State) : (State.completed s).outLen = s.outLen := rfl
@[simp] theorem completed_srcErr (s : State) : (State.completed s).srcErr = s.srcErr := rfl
@[simp] theorem completed_errVoice (s : State) : (State.completed s).errVoice = 0 := rfl
@[simp] theorem completed_errCtrl (s : State) : (State.completed s).errCtrl = 0 := rfl
@[simp] theorem completed_errFound (s : State) : (State.completed s).errFound = 0 := rfl
@[simp] theorem completed_errValue (s : State) : (State.completed s).errValue = 0 := rfl
@[simp] theorem completed_vs (s : State) : (State.completed s).vs = s.vs := rfl
@[simp] theorem completed_hs (s : State) : (State.completed s).hs = s.hs := rfl
@[simp] theorem completed_inBuf (s : State) : (State.completed s).inBuf = s.inBuf := rfl
@[simp] theorem completed_outBuf (s : State) : (State.completed s).outBuf = s.outBuf := rfl
@[simp] theorem completed_events (s : State) : (State.completed s).events = s.events := rfl
@[simp] theorem completed_reads (s : State) : (State.completed s).reads = s.reads := rfl

/-! ### Reset (70_reset_and_hazards.md R230) -/

@[simp] theorem afterReset_cfg (d : PowerUp) (s : State) : (State.afterReset d s).cfg = s.cfg := rfl
@[simp] theorem afterReset_cmd (d : PowerUp) (s : State) : (State.afterReset d s).cmd = 0 := rfl
@[simp] theorem afterReset_err (d : PowerUp) (s : State) : (State.afterReset d s).err = .ok := rfl
@[simp] theorem afterReset_kitValid (d : PowerUp) (s : State) : (State.afterReset d s).kitValid = false := rfl
@[simp] theorem afterReset_format (d : PowerUp) (s : State) : (State.afterReset d s).format = .format1 := rfl
@[simp] theorem afterReset_result (d : PowerUp) (s : State) : (State.afterReset d s).result = 0 := rfl
@[simp] theorem afterReset_inLen (d : PowerUp) (s : State) : (State.afterReset d s).inLen = 0 := rfl
@[simp] theorem afterReset_outLen (d : PowerUp) (s : State) : (State.afterReset d s).outLen = 0 := rfl
@[simp] theorem afterReset_srcErr (d : PowerUp) (s : State) : (State.afterReset d s).srcErr = false := rfl
@[simp] theorem afterReset_errVoice (d : PowerUp) (s : State) : (State.afterReset d s).errVoice = 0 := rfl
@[simp] theorem afterReset_errCtrl (d : PowerUp) (s : State) : (State.afterReset d s).errCtrl = 0 := rfl
@[simp] theorem afterReset_errFound (d : PowerUp) (s : State) : (State.afterReset d s).errFound = 0 := rfl
@[simp] theorem afterReset_errValue (d : PowerUp) (s : State) : (State.afterReset d s).errValue = 0 := rfl
@[simp] theorem afterReset_vs (d : PowerUp) (s : State) : (State.afterReset d s).vs =
    Memory.ofBytes (d.vsBytes.take 128) := rfl
@[simp] theorem afterReset_hs (d : PowerUp) (s : State) : (State.afterReset d s).hs =
    Memory.ofBytes (d.hsBytes.take hdrMax) := rfl
@[simp] theorem afterReset_inBuf (d : PowerUp) (s : State) : (State.afterReset d s).inBuf =
    Memory.ofBytes (d.inBytes.take s.cfg.p.inCap) := rfl
@[simp] theorem afterReset_outBuf (d : PowerUp) (s : State) : (State.afterReset d s).outBuf =
    Memory.ofBytes (d.outBytes.take s.cfg.p.outCap) := rfl
@[simp] theorem afterReset_events (d : PowerUp) (s : State) : (State.afterReset d s).events = s.events := rfl
@[simp] theorem afterReset_reads (d : PowerUp) (s : State) : (State.afterReset d s).reads = s.reads := rfl

/-! ### The outcomes -/

@[simp] theorem raise_eq_next (e : EngineError) (s t : State) : raise e s = .next t ↔ State.raised e s = t := by
  simp [raise]

@[simp] theorem complete_eq_next (s t : State) : complete s = .next t ↔ State.completed s = t := by
  simp [complete]

/-- No error writes the code OK (60_exceptions.md R200). -/
@[simp] theorem errorCode_ne_ok (e : EngineError) : errorCode e ≠ .ok := by cases e <;> simp [errorCode]

/-- Raising the same error again changes nothing (60_exceptions.md R209). -/
@[simp] theorem raised_raised (e : EngineError) (s : State) : State.raised e (State.raised e s) = State.raised e s := rfl

end Sys2Proof.Laws
end

