-- ==== Sys2Proof/Laws/Commands.lean ====
section
/-! SUPPORT. What each shared operation of the commands answers: the two stages of detection, decoding, the range checks,
encoding; and, for each command, the ways it can end. -/

namespace Sys2Proof.Laws

open Sys2Proof.Machine

/-! ### The first element of a list that a search accepts -/

/-- A search over the four voices finds what it finds at the lowest voice at which it finds something. -/
theorem findSome_allVoices {α : Type} (f : Voice → Option α) (x : α) :
    allVoices.findSome? f = some x ↔ ∃ v, f v = some x ∧ ∀ u, u.toNat < v.toNat → f u = none := by
  have hall : ∀ {q : Voice → Prop}, q 0#2 → q 1#2 → q 2#2 → q 3#2 → ∀ v, q v := by
    intro q h0 h1 h2 h3 v
    have hv := v.isLt
    rcases (by omega : v.toNat = 0 ∨ v.toNat = 1 ∨ v.toNat = 2 ∨ v.toNat = 3) with h | h | h | h
    · exact (BitVec.eq_of_toNat_eq (y := 0#2) h) ▸ h0
    · exact (BitVec.eq_of_toNat_eq (y := 1#2) h) ▸ h1
    · exact (BitVec.eq_of_toNat_eq (y := 2#2) h) ▸ h2
    · exact (BitVec.eq_of_toNat_eq (y := 3#2) h) ▸ h3
  constructor
  · intro h
    simp only [allVoices, List.findSome?_cons, List.findSome?_nil, BitVec.ofNat_eq_ofNat] at h
    cases h0 : f 0#2 with
    | some y =>
      rw [h0] at h; cases h
      exact ⟨0#2, h0, fun u hu => absurd hu (by simp)⟩
    | none =>
      rw [h0] at h
      cases h1 : f 1#2 with
      | some y =>
        simp only [h1] at h; cases h
        exact ⟨1#2, h1, hall (fun _ => h0) (by simp) (by simp) (by simp)⟩
      | none =>
        cases h2 : f 2#2 with
        | some y =>
          simp only [h1, h2] at h; cases h
          exact ⟨2#2, h2, hall (fun _ => h0) (fun _ => h1) (by simp) (by simp)⟩
        | none =>
          cases h3 : f 3#2 with
          | some y =>
            simp only [h1, h2, h3] at h; cases h
            exact ⟨3#2, h3, hall (fun _ => h0) (fun _ => h1) (fun _ => h2) (by simp)⟩
          | none => simp [h1, h2, h3] at h
  · rintro ⟨v, hv, hlt⟩
    revert v
    refine hall ?_ ?_ ?_ ?_
    · intro hv _; simp [allVoices, hv]
    · intro hv hlt
      simp [allVoices, hv, hlt 0#2 (by decide)]
    · intro hv hlt
      simp [allVoices, hv, hlt 0#2 (by decide), hlt 1#2 (by decide)]
    · intro hv hlt
      simp [allVoices, hv, hlt 0#2 (by decide), hlt 1#2 (by decide), hlt 2#2 (by decide)]

theorem findSome_allVoices_none {α : Type} (f : Voice → Option α) :
    allVoices.findSome? f = none ↔ ∀ v, f v = none := by
  simp [List.findSome?_eq_none_iff]

/-- A search over the controls finds what it finds at the lowest identifier at which it finds something. -/
theorem findSome_allControls {α : Type} (f : Control → Option α) (x : α) :
    allControls.findSome? f = some x ↔
      ∃ c, f c = some x ∧ ∀ d, (controlCode d).toNat < (controlCode c).toNat → f d = none := by
  rw [List.findSome?_eq_some_iff]
  constructor
  · rintro ⟨l₁, c, l₂, hl, hc, hnone⟩
    refine ⟨c, hc, fun d hd => hnone d ?_⟩
    have key : ∀ (c d : Control) (l₁ l₂ : List Control), allControls = l₁ ++ c :: l₂ →
        (controlCode d).toNat < (controlCode c).toNat → d ∈ l₁ := by
      intro c d l₁ l₂ hl hd
      have hidx : ∀ e : Control, allControls[(controlCode e).toNat]? = some e := by intro e; cases e <;> rfl
      have hnd : allControls.Nodup := by decide
      have hc1 : allControls[l₁.length]? = some c := by rw [hl]; simp
      have hlen : l₁.length = (controlCode c).toNat := by
        have h1 := hidx c
        rw [List.getElem?_eq_some_iff] at h1 hc1
        obtain ⟨h1, e1⟩ := h1
        obtain ⟨h2, e2⟩ := hc1
        exact (hnd.getElem_inj_iff).1 (e2.trans e1.symm)
      have hd1 := hidx d
      rw [hl, List.getElem?_append_left (by omega)] at hd1
      exact List.mem_of_getElem? hd1
    exact key c d l₁ l₂ hl hd
  · rintro ⟨c, hc, hlt⟩
    refine ⟨allControls.take (controlCode c).toNat, c, allControls.drop ((controlCode c).toNat + 1), ?_, hc, ?_⟩
    · cases c <;> rfl
    · intro d hd
      refine hlt d ?_
      revert hd
      cases c <;> cases d <;> decide

theorem findSome_allControls_none {α : Type} (f : Control → Option α) :
    allControls.findSome? f = none ↔ ∀ c, f c = none := by
  simp [List.findSome?_eq_none_iff]

/-! ### Detection (40_format_detector.md R121, R122) -/

theorem lengthStage_eq_some (cfg : Config) (len : Half) (fmt : Format) :
    lengthStage cfg.p len = some fmt ↔ len.toNat = total cfg.p fmt := by
  have hne : total cfg.p .format1 ≠ total cfg.p .format2 := fun h => by cases total_injective cfg h
  unfold lengthStage
  cases fmt <;> split <;> simp_all

theorem lengthStage_eq_none (p : Params) (len : Half) :
    lengthStage p len = none ↔ ∀ fmt, len.toNat ≠ total p fmt := by
  unfold lengthStage
  constructor
  · intro h fmt; cases fmt <;> split at h <;> simp_all
  · intro h; simp [h .format1, h .format2]

theorem markerStage_eq_none (p : Params) (buf : Memory) (fmt : Format) :
    markerStage p buf fmt = none ↔ ∀ v, markerOK (foundMarker p buf v fmt) = true := by
  rw [markerStage, findSome_allVoices_none]
  exact forall_congr' fun v => by split <;> simp_all

theorem markerStage_eq_some (p : Params) (buf : Memory) (fmt : Format) (e : EngineError) :
    markerStage p buf fmt = some e ↔
      ∃ v, markerOK (foundMarker p buf v fmt) = false ∧
        (∀ u, u.toNat < v.toNat → markerOK (foundMarker p buf u fmt) = true) ∧
        e = .markerMismatch v (packFound (foundMarker p buf v fmt)) := by
  rw [markerStage, findSome_allVoices]
  constructor
  · rintro ⟨v, hv, hlt⟩
    split at hv
    · cases hv
    · rename_i hbad
      exact ⟨v, by simpa using hbad, fun u hu => by simpa using hlt u hu, (Option.some.inj hv).symm⟩
  · rintro ⟨v, hv, hlt, rfl⟩
    exact ⟨v, by simp [hv], fun u hu => by simp [hlt u hu]⟩

/-- Detection accepts exactly the inputs of an admissible length with four good markers, when SRC_ERR = 0. -/
theorem detectInput_eq_ok (s : State) (fmt : Format) :
    detectInput s = .ok fmt ↔
      s.srcErr = false ∧ s.inLen.toNat = total s.cfg.p fmt ∧
        ∀ v, markerOK (foundMarker s.cfg.p s.inBuf v fmt) = true := by
  rw [← lengthStage_eq_some, ← markerStage_eq_none]
  unfold detectInput detectFormat
  cases s.srcErr <;> simp only [if_true, Bool.false_eq_true, if_false, true_and, false_and, reduceCtorEq]
  cases lengthStage s.cfg.p s.inLen with
  | none => simp
  | some f =>
    simp only [Option.some.injEq]
    cases hm : markerStage s.cfg.p s.inBuf f with
    | none =>
      constructor
      · intro h; cases h; exact ⟨rfl, hm⟩
      · rintro ⟨rfl, -⟩; rfl
    | some e =>
      constructor
      · intro h; cases h
      · rintro ⟨rfl, h⟩; rw [hm] at h; cases h

/-- The three errors of detection, in their order (60_exceptions.md R207). -/
theorem detectInput_eq_error (s : State) (e : EngineError) :
    detectInput s = .error e ↔
      (s.srcErr = true ∧ e = .sourceUnavailable) ∨
      (s.srcErr = false ∧ (∀ fmt, s.inLen.toNat ≠ total s.cfg.p fmt) ∧ e = .malformedRecord s.inLen) ∨
      (s.srcErr = false ∧ ∃ fmt v, s.inLen.toNat = total s.cfg.p fmt ∧
        markerOK (foundMarker s.cfg.p s.inBuf v fmt) = false ∧
        (∀ u, u.toNat < v.toNat → markerOK (foundMarker s.cfg.p s.inBuf u fmt) = true) ∧
        e = .markerMismatch v (packFound (foundMarker s.cfg.p s.inBuf v fmt))) := by
  unfold detectInput detectFormat
  cases hs : s.srcErr with
  | true => constructor <;> intro h <;> simp_all
  | false =>
    simp only [Bool.false_eq_true, if_false, false_and, true_and, false_or]
    cases hl : lengthStage s.cfg.p s.inLen with
    | none =>
      have hnone := (lengthStage_eq_none _ _).1 hl
      simp only [Except.error.injEq]
      constructor
      · rintro rfl; exact .inl ⟨hnone, rfl⟩
      · rintro (⟨-, rfl⟩ | ⟨fmt, v, h, -⟩)
        · rfl
        · exact absurd h (hnone fmt)
    | some f =>
      have hf := (lengthStage_eq_some s.cfg _ _).1 hl
      constructor
      · intro h
        cases hm : markerStage s.cfg.p s.inBuf f with
        | none => simp [hm] at h
        | some e' =>
          obtain ⟨v, h1, h2, h3⟩ := (markerStage_eq_some _ _ _ _).1 hm
          simp only [hm, Except.error.injEq] at h
          exact .inr ⟨f, v, hf, h1, h2, h ▸ h3⟩
      · rintro (⟨h, -⟩ | ⟨fmt, v, h, h1, h2, rfl⟩)
        · exact absurd hf (h f)
        · obtain rfl := total_injective s.cfg (hf.symm.trans h)
          simp [(markerStage_eq_some _ _ _ _).2 ⟨v, h1, h2, rfl⟩]

/-! ### Decoding (41_voice_codec.md R142, 42_kit_codec.md R171) -/

/-- The 32-byte image of voice v's window in a buffer, 0 above the window (41_voice_codec.md R142). -/
def windowImage (p : Params) (buf : Memory) (fmt : Format) (v : Voice) : List Byte :=
  (List.range voiceMax).map fun o => if o < vlen v fmt then Memory.read buf (vbase p v fmt + o) else 0

@[simp] theorem length_windowImage (p : Params) (buf : Memory) (fmt : Format) (v : Voice) :
    (windowImage p buf fmt v).length = 32 := by simp [windowImage, voiceMax]

theorem getD_windowImage (p : Params) (buf : Memory) (fmt : Format) (v : Voice) (o : Nat) :
    (windowImage p buf fmt v).getD o 0 = if o < vlen v fmt then Memory.read buf (vbase p v fmt + o) else 0 := by
  have := vlen_range v fmt
  by_cases ho : o < 32
  · simp [windowImage, voiceMax, List.getD_eq_getElem?_getD, ho]
  · rw [List.getD_eq_default _ _ (by simp; omega), if_neg (by omega)]

/-- Bytes 4..7 of a window are the bytes the detector finds. -/
theorem window_marker (p : Params) (buf : Memory) (v : Voice) (fmt : Format) :
    ((voiceWindow p buf v fmt).drop 4).take 4 = foundMarker p buf v fmt := by
  have := vlen_range v fmt
  refine List.ext_getElem (by simp [voiceWindow, foundMarker]; omega) fun n h1 h2 => ?_
  simp [voiceWindow, foundMarker, Memory.readBytes, Nat.add_assoc]

/-- Under LOAD the marker test of VoiceDecode is the detector's (41_voice_codec.md R142). -/
theorem voiceDecode_window (p : Params) (buf : Memory) (v : Voice) (fmt : Format) :
    voiceDecode (voiceWindow p buf v fmt) v fmt =
      if markerOK (foundMarker p buf v fmt) then .ok (windowImage p buf fmt v)
      else .error (.markerMismatch v (packFound (foundMarker p buf v fmt))) := by
  rw [voiceDecode, window_marker]
  have himg : (List.range voiceMax).map (fun o => if o < vlen v fmt then (voiceWindow p buf v fmt).getD o 0 else 0)
      = windowImage p buf fmt v := by
    refine List.map_congr_left fun o _ => ?_
    split
    · rw [voiceWindow, getD_readBytes _ _ _ _ ‹_›]
    · rfl
  rw [himg]

theorem decodeVoices_ok {p : Params} {buf : Memory} {fmt : Format}
    (h : ∀ v, markerOK (foundMarker p buf v fmt) = true) (vs : List Voice) :
    decodeVoices p buf fmt vs = .ok (vs.flatMap (windowImage p buf fmt)) := by
  induction vs with
  | nil => rfl
  | cons v vs ih => simp [decodeVoices, voiceDecode_window, h v, ih]

/-- One voice's part of the four images laid end to end. -/
theorem getD_flatMap_images (f : Voice → List Byte) (hf : ∀ v, (f v).length = 32) (v : Voice) (o : Nat) (ho : o < 32) :
    (allVoices.flatMap f).getD (vsAddr v o) 0 = (f v).getD o 0 := by
  have hv := v.isLt
  simp only [allVoices, List.flatMap_cons, List.flatMap_nil, List.append_nil]
  rcases (by omega : v.toNat = 0 ∨ v.toNat = 1 ∨ v.toNat = 2 ∨ v.toNat = 3) with h | h | h | h
  · obtain rfl := BitVec.eq_of_toNat_eq (y := 0#2) h
    rw [List.getD_append _ _ _ _ (by simp [vsAddr, hf]; omega)]; simp [vsAddr]
  · obtain rfl := BitVec.eq_of_toNat_eq (y := 1#2) h
    rw [List.getD_append_right _ _ _ _ (by simp [vsAddr, hf]), List.getD_append _ _ _ _ (by simp [vsAddr, hf]; omega)]
    simp [vsAddr, hf]
  · obtain rfl := BitVec.eq_of_toNat_eq (y := 2#2) h
    rw [List.getD_append_right _ _ _ _ (by simp [vsAddr, hf]; omega),
      List.getD_append_right _ _ _ _ (by simp [vsAddr, hf]; omega), List.getD_append _ _ _ _ (by simp [vsAddr, hf]; omega)]
    congr 1; simp [vsAddr, hf]; omega
  · obtain rfl := BitVec.eq_of_toNat_eq (y := 3#2) h
    rw [List.getD_append_right _ _ _ _ (by simp [vsAddr, hf]; omega),
      List.getD_append_right _ _ _ _ (by simp [vsAddr, hf]; omega),
      List.getD_append_right _ _ _ _ (by simp [vsAddr, hf]; omega)]
    congr 1; simp [vsAddr, hf]; omega

@[simp] theorem length_headerImage (p : Params) (buf : Memory) (fmt : Format) : (headerImage p buf fmt).length = 59 := by
  simp [headerImage, hdrMax]

theorem getD_headerImage (cfg : Config) (buf : Memory) (fmt : Format) (i : Nat) :
    (headerImage cfg.p buf fmt).getD i 0 = if i < hdrLen cfg.p fmt then Memory.read buf i else 0 := by
  have := hdrLen_range cfg fmt
  by_cases hi : i < 59
  · simp [headerImage, hdrMax, List.getD_eq_getElem?_getD, hi]
  · rw [List.getD_eq_default _ _ (by simp; omega), if_neg (by omega)]

/-! ### The range check (41_voice_codec.md R145, R147) -/

theorem getD_voiceImage (s : State) (v : Voice) (o : Nat) (ho : o < 32) :
    (voiceImage s v).getD o 0 = Memory.read s.vs (vsAddr v o) := by
  rw [voiceImage, getD_readBytes _ _ _ _ ho]; simp [vsAddr]

theorem control_of_image (s : State) (v : Voice) (c : Control) :
    (voiceImage s v).getD (ctrlOff s.cfg.p c) 0 = controlByte s v c := by
  have := ctrlOff_lt s.cfg c
  rw [getD_voiceImage _ _ _ (by omega), controlByte]

/-- A stored byte fails the range check only as a toggle, and only above 2 (41_voice_codec.md R147). -/
theorem rangeOK_byte (c : Control) (b : Byte) :
    rangeOK c (b.toNat : Int) = true ↔ (controlKind c = .toggle → b.toNat ≤ 2) := by
  have := b.isLt
  unfold rangeOK maxValue
  cases controlKind c <;> simp
  omega

theorem saveCheck_eq_none (s : State) :
    saveCheck s = none ↔ ∀ v c, rangeOK c ((controlByte s v c).toNat : Int) = true := by
  simp only [saveCheck, voiceCheck, findSome_allVoices_none, findSome_allControls_none, control_of_image]
  exact forall₂_congr fun v c => by split <;> simp_all

theorem saveCheck_eq_some (s : State) (e : EngineError) :
    saveCheck s = some e ↔
      ∃ v c, rangeOK c ((controlByte s v c).toNat : Int) = false ∧
        (∀ u d, u.toNat < v.toNat → rangeOK d ((controlByte s u d).toNat : Int) = true) ∧
        (∀ d, (controlCode d).toNat < (controlCode c).toNat → rangeOK d ((controlByte s v d).toNat : Int) = true) ∧
        e = .outOfRange v (controlCode c) ((controlByte s v c).setWidth 16) := by
  simp only [saveCheck, voiceCheck, findSome_allVoices, findSome_allControls, findSome_allControls_none, control_of_image]
  constructor
  · rintro ⟨v, ⟨c, hc, hd⟩, hu⟩
    split at hc
    · cases hc
    · rename_i hbad
      refine ⟨v, c, by simpa using hbad, fun u d h => ?_, fun d h => ?_, (Option.some.inj hc).symm⟩
      · have := hu u h d; split at this <;> simp_all
      · have := hd d h; split at this <;> simp_all
  · rintro ⟨v, c, hc, hu, hd, rfl⟩
    exact ⟨v, ⟨c, by simp [hc], fun d h => by simp [hd d h]⟩, fun u h d => by simp [hu u d h]⟩

/-! ### Encoding (41_voice_codec.md R146, 42_kit_codec.md R175) -/

@[simp] theorem length_voiceEncode (img : List Byte) (v : Voice) (fmt : Format) :
    (voiceEncode img v fmt).length = vlen v fmt := by simp [voiceEncode]

theorem getD_voiceEncode (img : List Byte) (v : Voice) (fmt : Format) (o : Nat) (ho : o < vlen v fmt) :
    (voiceEncode img v fmt).getD o 0 = if 4 ≤ o ∧ o ≤ 7 then marker.getD (o - 4) 0 else img.getD o 0 := by
  simp [voiceEncode, List.getD_eq_getElem?_getD, ho]

/-- The record SAVE writes has the length of its format (42_kit_codec.md R177). -/
@[simp] theorem length_encodeKit (s : State) : (encodeKit s).length = total s.cfg.p s.format := by
  simp only [encodeKit, allVoices, List.flatMap_cons, List.flatMap_nil, List.append_nil, List.length_append,
    length_readBytes, length_voiceEncode, total]
  simp [vlen]; omega

theorem getD_encodeKit_header (s : State) (i : Nat) (hi : i < hdrLen s.cfg.p s.format) :
    (encodeKit s).getD i 0 = Memory.read s.hs i := by
  rw [encodeKit, List.getD_append _ _ _ _ (by simpa using hi), getD_readBytes _ _ _ _ hi, Nat.zero_add]

theorem getD_encodeKit_window (s : State) (v : Voice) (o : Nat) (ho : o < vlen v s.format) :
    (encodeKit s).getD (vbase s.cfg.p v s.format + o) 0
      = if 4 ≤ o ∧ o ≤ 7 then marker.getD (o - 4) 0 else Memory.read s.vs (vsAddr v o) := by
  have hr := vlen_range v s.format
  have h0 : vlen 0#2 s.format = 26 := by simp [vlen]
  have h1 : vlen 1#2 s.format = 26 := by simp [vlen]
  have h2 : vlen 2#2 s.format = 26 := by simp [vlen]
  have hpart : ((allVoices.flatMap fun v => voiceEncode (voiceImage s v) v s.format).getD (26 * v.toNat + o) 0)
      = (voiceEncode (voiceImage s v) v s.format).getD o 0 := by
    have hv := v.isLt
    simp only [allVoices, List.flatMap_cons, List.flatMap_nil, List.append_nil]
    rcases (by omega : v.toNat = 0 ∨ v.toNat = 1 ∨ v.toNat = 2 ∨ v.toNat = 3) with h | h | h | h
    · obtain rfl := BitVec.eq_of_toNat_eq (y := 0#2) h
      rw [List.getD_append _ _ _ _ (by simpa using ho)]; simp
    · obtain rfl := BitVec.eq_of_toNat_eq (y := 1#2) h
      rw [List.getD_append_right _ _ _ _ (by simp [h0]), List.getD_append _ _ _ _ (by simp [h0, h1]; omega)]
      congr 1; simp [h0]
    · obtain rfl := BitVec.eq_of_toNat_eq (y := 2#2) h
      rw [List.getD_append_right _ _ _ _ (by simp [h0]; omega), List.getD_append_right _ _ _ _ (by simp [h0, h1]; omega),
        List.getD_append _ _ _ _ (by simp [h0, h1, h2]; omega)]
      congr 1; simp [h0, h1]; omega
    · obtain rfl := BitVec.eq_of_toNat_eq (y := 3#2) h
      rw [List.getD_append_right _ _ _ _ (by simp [h0]; omega), List.getD_append_right _ _ _ _ (by simp [h0, h1]; omega),
        List.getD_append_right _ _ _ _ (by simp [h0, h1, h2]; omega)]
      congr 1; simp [h0, h1, h2]; omega
  rw [encodeKit, List.getD_append_right _ _ _ _ (by simp [vbase]; omega), length_readBytes,
    show vbase s.cfg.p v s.format + o - hdrLen s.cfg.p s.format = 26 * v.toNat + o by simp [vbase]; omega, hpart,
    getD_voiceEncode _ _ _ _ ho, getD_voiceImage _ _ _ (by omega)]

/-! ### The ways a command ends -/

/-- DETECT ends in the error of detection, or completes with the format's code in RESULT. -/
theorem execDetect_eq (s : State) :
    (∃ e, detectInput s = .error e ∧ execDetect s = .next (State.raised e s)) ∨
    (∃ fmt, detectInput s = .ok fmt ∧ execDetect s = .next (State.completed { s with result := formatCode fmt })) := by
  unfold execDetect
  cases detectInput s with
  | error e => exact .inl ⟨e, rfl, rfl⟩
  | ok fmt => exact .inr ⟨fmt, rfl, rfl⟩

/-- The state LOAD leaves when detection gives `fmt`. -/
def State.loaded (fmt : Format) (s : State) : State :=
  State.completed { s with
    hs := Memory.ofBytes (headerImage s.cfg.p s.inBuf fmt)
    vs := Memory.ofBytes (allVoices.flatMap (windowImage s.cfg.p s.inBuf fmt))
    format := fmt
    kitValid := true
    result := formatCode fmt }

/-- LOAD ends in the error of detection, or completes with the whole kit replaced. -/
theorem execLoad_eq (s : State) :
    (∃ e, detectInput s = .error e ∧ execLoad s = .next (State.raised e s)) ∨
    (∃ fmt, detectInput s = .ok fmt ∧ execLoad s = .next (State.loaded fmt s)) := by
  unfold execLoad
  cases hd : detectInput s with
  | error e => exact .inl ⟨e, rfl, rfl⟩
  | ok fmt =>
    have hm := ((detectInput_eq_ok s fmt).1 hd).2.2
    exact .inr ⟨fmt, rfl, by simp only [decodeVoices_ok hm]; rfl⟩

theorem loaded_hs (fmt : Format) (s : State) (i : Nat) :
    Memory.read (State.loaded fmt s).hs i = if i < hdrLen s.cfg.p fmt then Memory.read s.inBuf i else 0 := by
  rw [State.loaded, completed_hs, read_ofBytes, getD_headerImage]

theorem loaded_vs (fmt : Format) (s : State) (v : Voice) (o : Nat) (ho : o < 32) :
    Memory.read (State.loaded fmt s).vs (vsAddr v o)
      = if o < vlen v fmt then Memory.read s.inBuf (vbase s.cfg.p v fmt + o) else 0 := by
  rw [State.loaded, completed_vs, read_ofBytes, getD_flatMap_images _ (length_windowImage s.cfg.p s.inBuf fmt) v o ho,
    getD_windowImage]

/-- The state a completing SAVE leaves. -/
def State.saved (s : State) : State :=
  State.completed { s with
    outBuf := Memory.writeBytes s.outBuf 0 (encodeKit s)
    outLen := BitVec.ofNat 16 (total s.cfg.p s.format)
    result := BitVec.ofNat 32 (total s.cfg.p s.format) }

/-- SAVE raises NO_KIT, or the first error of the range check, or completes. -/
theorem execSave_eq (s : State) :
    (s.kitValid = false ∧ execSave s = .next (State.raised .noKit s)) ∨
    (∃ e, s.kitValid = true ∧ saveCheck s = some e ∧ execSave s = .next (State.raised e s)) ∨
    (s.kitValid = true ∧ saveCheck s = none ∧ execSave s = .next (State.saved s)) := by
  by_cases hk : s.kitValid = true
  · cases hc : saveCheck s with
    | some e => exact .inr (.inl ⟨e, hk, rfl, by rw [execSave, if_pos hk, hc]; rfl⟩)
    | none => exact .inr (.inr ⟨hk, rfl, by rw [execSave, if_pos hk, hc]; rfl⟩)
  · exact .inl ⟨by simpa using hk, by rw [execSave, if_neg hk]; rfl⟩

theorem saved_outBuf (s : State) (a : Nat) :
    Memory.read (State.saved s).outBuf a
      = if a < total s.cfg.p s.format then (encodeKit s).getD a 0 else Memory.read s.outBuf a := by
  simp [State.saved, read_writeBytes]

theorem saved_outLen (s : State) : (State.saved s).outLen.toNat = total s.cfg.p s.format := by
  have := total_le_256 s.cfg s.format
  simp [State.saved]; omega

/-- GET raises ILLEGAL_COMMAND or NO_KIT, or completes with the control's byte in RESULT. -/
theorem execGet_eq (v : Voice) (c : BitVec 4) (s : State) :
    (controlOfCode c = none ∧ execGet v c s = .next (State.raised .illegalCommand s)) ∨
    (∃ ctl, controlOfCode c = some ctl ∧ s.kitValid = false ∧ execGet v c s = .next (State.raised .noKit s)) ∨
    (∃ ctl, controlOfCode c = some ctl ∧ s.kitValid = true ∧
      execGet v c s = .next (State.completed { s with result := (controlByte s v ctl).setWidth 32 })) := by
  cases hc : controlOfCode c with
  | none => exact .inl ⟨rfl, by rw [execGet, hc]; rfl⟩
  | some ctl =>
    by_cases hk : s.kitValid = true
    · exact .inr (.inr ⟨ctl, rfl, hk, by simp only [execGet, hc]; rw [if_pos hk]; rfl⟩)
    · exact .inr (.inl ⟨ctl, rfl, by simpa using hk, by simp only [execGet, hc]; rw [if_neg hk]; rfl⟩)

/-- The state a completing SET leaves. -/
def State.controlSet (v : Voice) (ctl : Control) (imm : Half) (s : State) : State :=
  State.completed { s with vs := Memory.write s.vs (vsAddr v (ctrlOff s.cfg.p ctl)) (immByte imm) }

/-- SET raises ILLEGAL_COMMAND, NO_KIT or OUT_OF_RANGE, or completes with one byte of the voice store written. -/
theorem execSet_eq (v : Voice) (c : BitVec 4) (imm : Half) (s : State) :
    (controlOfCode c = none ∧ execSet v c imm s = .next (State.raised .illegalCommand s)) ∨
    (∃ ctl, controlOfCode c = some ctl ∧ s.kitValid = false ∧ execSet v c imm s = .next (State.raised .noKit s)) ∨
    (∃ ctl, controlOfCode c = some ctl ∧ s.kitValid = true ∧ rangeOK ctl (immValue imm) = false ∧
      execSet v c imm s = .next (State.raised (.outOfRange v c imm) s)) ∨
    (∃ ctl, controlOfCode c = some ctl ∧ s.kitValid = true ∧ rangeOK ctl (immValue imm) = true ∧
      execSet v c imm s = .next (State.controlSet v ctl imm s)) := by
  cases hc : controlOfCode c with
  | none => exact .inl ⟨rfl, by rw [execSet, hc]; rfl⟩
  | some ctl =>
    by_cases hk : s.kitValid = true
    · by_cases hr : rangeOK ctl (immValue imm) = true
      · exact .inr (.inr (.inr ⟨ctl, rfl, hk, hr, by simp only [execSet, hc]; rw [if_pos hk, if_pos hr]; rfl⟩))
      · exact .inr (.inr (.inl ⟨ctl, rfl, hk, by simpa using hr,
          by simp only [execSet, hc]; rw [if_pos hk, if_neg hr]; rfl⟩))
    · exact .inr (.inl ⟨ctl, rfl, by simpa using hk, by simp only [execSet, hc]; rw [if_neg hk]; rfl⟩)

end Sys2Proof.Laws
end

