-- ==== Sys2Proof/Laws/Port.lean ====
section
/-! SUPPORT. The host port: what each address names, what each event does. -/

namespace Sys2Proof.Laws

open Sys2Proof.Machine Sys2Proof.Safety

/-! ### The address map (20_memory.md R70) -/

@[simp] theorem regAt_regOffset (r : Reg) : regAt (regOffset r) = some r := by cases r <;> rfl

/-- Offsets below 0x24 at a multiple of 4 are the registers. -/
theorem regAt_isSome {off : Nat} (h : off < 0x24) : (∃ r, regAt off = some r) ↔ off % 4 = 0 := by
  have : ∀ off < 0x24, (regAt off).isSome = true ↔ off % 4 = 0 := by decide
  simpa [Option.isSome_iff_exists] using this off h

theorem regOffset_of_regAt {off : Nat} {r : Reg} (h : regAt off = some r) : off = regOffset r := by
  unfold regAt at h
  split at h <;> cases h <;> rfl

@[simp] theorem regionOfAddr_busAddr (p : Params) (off : Nat) : regionOfAddr p (busAddr p off) = regionAt p off := by
  simp [regionOfAddr, busAddr]

@[simp] theorem regionAt_regOffset (p : Params) (r : Reg) : regionAt p (regOffset r) = .register r := by
  cases r <;> rfl

/-- CMD is at the base of the window. -/
@[simp] theorem regionOfAddr_base (p : Params) : regionOfAddr p p.hostBase = .register .cmd := by
  simpa only [busAddr, regOffset, Nat.add_zero, regionAt_regOffset] using
    (regionOfAddr_busAddr p (regOffset .cmd)).trans (regionAt_regOffset p .cmd)

theorem regionAt_eq_register {p : Params} {off : Nat} {r : Reg} : regionAt p off = .register r ↔ off = regOffset r := by
  constructor
  · intro h
    unfold regionAt at h
    split at h
    · split at h
      · cases h; exact regOffset_of_regAt ‹_›
      · cases h
    · repeat' (split at h)
      all_goals cases h
  · rintro rfl; simp

theorem regionOfAddr_eq_register {p : Params} {addr : Nat} {r : Reg} :
    regionOfAddr p addr = .register r ↔ addr = p.hostBase + regOffset r := by
  unfold regionOfAddr
  split
  · constructor
    · intro h; cases h
    · intro h; omega
  · rw [regionAt_eq_register]; omega

theorem regionOfAddr_in {p : Params} {a : Nat} (h : a < p.inCap) (hcap : p.inCap ≤ 256) :
    regionOfAddr p (p.hostBase + 0x100 + a) = .inByte a := by
  have h1 : ¬ p.hostBase + 0x100 + a < p.hostBase := by omega
  have h2 : p.hostBase + 0x100 + a - p.hostBase = 0x100 + a := by omega
  have h3 : ¬ 0x100 + a < 0x24 := by omega
  have h5 : 0x100 + a < 0x200 := by omega
  simp [regionOfAddr, regionAt, h1, h2, h3, h5, inWindow, outWindow, h]

theorem regionOfAddr_out {p : Params} {a : Nat} (h : a < p.outCap) (hcap : p.outCap ≤ 256) :
    regionOfAddr p (p.hostBase + 0x200 + a) = .outByte a := by
  have h1 : ¬ p.hostBase + 0x200 + a < p.hostBase := by omega
  have h2 : p.hostBase + 0x200 + a - p.hostBase = 0x200 + a := by omega
  have h3 : ¬ 0x200 + a < 0x24 := by omega
  have h4 : ¬ 0x200 + a < 0x100 := by omega
  have h6 : 0x200 + a < 0x300 := by omega
  simp [regionOfAddr, regionAt, h1, h2, h3, h4, h6, inWindow, outWindow, windowSize, h]

theorem regionOfAddr_eq_inByte {p : Params} {addr a : Nat} (h : regionOfAddr p addr = .inByte a) :
    a < p.inCap ∧ addr = p.hostBase + 0x100 + a := by
  unfold regionOfAddr regionAt inWindow outWindow windowSize at h
  repeat' (split at h)
  all_goals first
    | (injection h with h; omega)
    | cases h

theorem regionOfAddr_eq_outByte {p : Params} {addr a : Nat} (h : regionOfAddr p addr = .outByte a) :
    a < p.outCap ∧ addr = p.hostBase + 0x200 + a := by
  unfold regionOfAddr regionAt inWindow outWindow windowSize at h
  repeat' (split at h)
  all_goals first
    | (injection h with h; omega)
    | cases h

/-- A refused access is a refusal. -/
theorem refuseAccess_refused (p : Params) (addr : Nat) : ∃ r, refuseAccess p addr = .refused r := by
  unfold refuseAccess
  split <;> exact ⟨_, rfl⟩

/-! ### One step -/

theorem step_nil {s : State} (h : s.events = []) : step s = .next s := by simp [step, nextEvent, h]

theorem step_cons {s : State} {e : Event} {rest : List Event} (h : s.events = e :: rest) :
    step s = handleEvent e { s with events := rest } := by simp [step, nextEvent, h]

/-- What an event can do when it answers a next state. -/
theorem handleEvent_next {e : Event} {s t : State} (h : handleEvent e s = .next t) :
    (∃ w i, e = .wr32 s.cfg.p.hostBase w ∧ decode w = .ok i ∧ exec i { s with cmd := w } = .next t) ∨
    (∃ w err, e = .wr32 s.cfg.p.hostBase w ∧ decode w = .error err ∧
      t = State.raised .illegalCommand { s with cmd := w }) ∨
    (∃ w, e = .wr32 (s.cfg.p.hostBase + 0x0C) w ∧ t = { s with inLen := w.extractLsb' 0 16 }) ∨
    (∃ w, e = .wr32 (s.cfg.p.hostBase + 0x14) w ∧ t = { s with srcErr := w.getLsbD 0 }) ∨
    (∃ r w, e = .wr32 (s.cfg.p.hostBase + regOffset r) w ∧ r ≠ .cmd ∧ r ≠ .inLen ∧ r ≠ .srcCtrl ∧ t = s) ∨
    (∃ a b, e = .wr8 (s.cfg.p.hostBase + 0x100 + a) b ∧ a < s.cfg.p.inCap ∧
      t = { s with inBuf := Memory.write s.inBuf a b }) ∨
    (∃ a b, e = .wr8 (s.cfg.p.hostBase + 0x200 + a) b ∧ a < s.cfg.p.outCap ∧ t = s) ∨
    (∃ r, (∀ addr w, e ≠ .wr32 addr w) ∧ (∀ addr b, e ≠ .wr8 addr b) ∧ (∀ d, e ≠ .reset d) ∧
      t = { s with reads := s.reads ++ [r] }) ∨
    (∃ d, e = .reset d ∧ t = State.afterReset d s) := by
  cases e with
  | wr32 addr w =>
    simp only [handleEvent, hostWrite32] at h
    split at h
    · rename_i r hr
      obtain rfl := regionOfAddr_eq_register.1 hr
      cases r <;> simp only [regWrite, runCommand] at h
      · split at h
        · exact .inl ⟨w, _, by simp [regOffset], ‹_›, h⟩
        · exact .inr (.inl ⟨w, _, by simp [regOffset], ‹_›, (raise_eq_next _ _ _).1 h ▸ rfl⟩)
      all_goals cases h
      · exact .inr (.inr (.inr (.inr (.inl ⟨.status, w, rfl, by simp⟩))))
      · exact .inr (.inr (.inr (.inr (.inl ⟨.result, w, rfl, by simp⟩))))
      · exact .inr (.inr (.inl ⟨w, rfl, rfl⟩))
      · exact .inr (.inr (.inr (.inr (.inl ⟨.outLen, w, rfl, by simp⟩))))
      · exact .inr (.inr (.inr (.inl ⟨w, rfl, rfl⟩)))
      · exact .inr (.inr (.inr (.inr (.inl ⟨.errInfo, w, rfl, by simp⟩))))
      · exact .inr (.inr (.inr (.inr (.inl ⟨.errFound, w, rfl, by simp⟩))))
      · exact .inr (.inr (.inr (.inr (.inl ⟨.errValue, w, rfl, by simp⟩))))
    · obtain ⟨r, hr⟩ := refuseAccess_refused s.cfg.p addr
      rw [hr] at h; cases h
  | rd32 addr =>
    simp only [handleEvent, hostRead32] at h
    split at h
    · cases h
      exact .inr (.inr (.inr (.inr (.inr (.inr (.inr (.inl ⟨_, by simp, by simp, by simp, rfl⟩)))))))
    · obtain ⟨r, hr⟩ := refuseAccess_refused s.cfg.p addr
      rw [hr] at h; cases h
  | wr8 addr b =>
    simp only [handleEvent, hostWrite8] at h
    split at h
    · rename_i a ha
      obtain ⟨hlt, rfl⟩ := regionOfAddr_eq_inByte ha
      cases h
      exact .inr (.inr (.inr (.inr (.inr (.inl ⟨a, b, rfl, hlt, rfl⟩)))))
    · rename_i a ha
      obtain ⟨hlt, rfl⟩ := regionOfAddr_eq_outByte ha
      cases h
      exact .inr (.inr (.inr (.inr (.inr (.inr (.inl ⟨a, b, rfl, hlt, rfl⟩))))))
    · obtain ⟨r, hr⟩ := refuseAccess_refused s.cfg.p addr
      rw [hr] at h; cases h
  | rd8 addr =>
    simp only [handleEvent, hostRead8] at h
    split at h
    · cases h
      exact .inr (.inr (.inr (.inr (.inr (.inr (.inr (.inl ⟨_, by simp, by simp, by simp, rfl⟩)))))))
    · cases h
      exact .inr (.inr (.inr (.inr (.inr (.inr (.inr (.inl ⟨_, by simp, by simp, by simp, rfl⟩)))))))
    · obtain ⟨r, hr⟩ := refuseAccess_refused s.cfg.p addr
      rw [hr] at h; cases h
  | otherWidth bits addr =>
    obtain ⟨r, hr⟩ := refuseAccess_refused s.cfg.p addr
    simp only [handleEvent, hr] at h; cases h
  | reset d =>
    cases h
    exact .inr (.inr (.inr (.inr (.inr (.inr (.inr (.inr ⟨d, rfl, rfl⟩)))))))

end Sys2Proof.Laws
end

