-- ==== Sys2Proof/Laws/Words.lean ====
section
/-! SUPPORT. Words as numbers: the fields of a command word, the word of a command, the words of the registers. -/

namespace Sys2Proof.Laws

open Sys2Proof.Machine

/-- Appending bit vectors adds the left one, shifted. -/
theorem toNat_append_eq {n m : Nat} (x : BitVec n) (y : BitVec m) : (x ++ y).toNat = x.toNat * 2 ^ m + y.toNat := by
  rw [BitVec.toNat_append, Nat.shiftLeft_eq, Nat.mul_comm, ← Nat.two_pow_add_eq_or_of_lt y.isLt]

/-! ### The fields of CMD32 (30_encoding.md R91) -/

theorem fieldOP_toNat (w : Word) : (fieldOP w).toNat = w.toNat % 16 := by simp [fieldOP]
theorem fieldV_toNat (w : Word) : (fieldV w).toNat = w.toNat / 16 % 4 := by simp [fieldV, Nat.shiftRight_eq_div_pow]
theorem fieldC_toNat (w : Word) : (fieldC w).toNat = w.toNat / 64 % 16 := by simp [fieldC, Nat.shiftRight_eq_div_pow]
theorem fieldRSV_toNat (w : Word) : (fieldRSV w).toNat = w.toNat / 1024 % 64 := by
  simp [fieldRSV, Nat.shiftRight_eq_div_pow]
theorem fieldIMM_toNat (w : Word) : (fieldIMM w).toNat = w.toNat / 65536 % 65536 := by
  simp [fieldIMM, Nat.shiftRight_eq_div_pow]

/-- The number of a command word (30_encoding.md R100). -/
theorem assemble_toNat (op : BitVec 4) (v : Voice) (c : BitVec 4) (imm : Half) :
    (assemble op v c imm).toNat = op.toNat + 16 * v.toNat + 64 * c.toNat + 65536 * imm.toNat := by
  have h : (BitVec.toNat (w := 16 + 6 + 4 + 2 + 4) (imm ++ (0 : BitVec 6) ++ c ++ v ++ op))
      = op.toNat + 16 * v.toNat + 64 * c.toNat + 65536 * imm.toNat := by
    simp only [toNat_append_eq, BitVec.ofNat_eq_ofNat, BitVec.toNat_ofNat, Nat.zero_mod]
    omega
  exact h

@[simp] theorem fieldOP_assemble (op : BitVec 4) (v : Voice) (c : BitVec 4) (imm : Half) :
    fieldOP (assemble op v c imm) = op := by
  apply BitVec.eq_of_toNat_eq
  rw [fieldOP_toNat, assemble_toNat]
  have := op.isLt
  omega

@[simp] theorem fieldV_assemble (op : BitVec 4) (v : Voice) (c : BitVec 4) (imm : Half) :
    fieldV (assemble op v c imm) = v := by
  apply BitVec.eq_of_toNat_eq
  rw [fieldV_toNat, assemble_toNat]
  have := op.isLt; have := v.isLt
  omega

@[simp] theorem fieldC_assemble (op : BitVec 4) (v : Voice) (c : BitVec 4) (imm : Half) :
    fieldC (assemble op v c imm) = c := by
  apply BitVec.eq_of_toNat_eq
  rw [fieldC_toNat, assemble_toNat]
  have := op.isLt; have := v.isLt; have := c.isLt
  omega

@[simp] theorem fieldRSV_assemble (op : BitVec 4) (v : Voice) (c : BitVec 4) (imm : Half) :
    fieldRSV (assemble op v c imm) = 0 := by
  apply BitVec.eq_of_toNat_eq
  rw [fieldRSV_toNat, assemble_toNat]
  have := op.isLt; have := v.isLt; have := c.isLt
  simp only [BitVec.ofNat_eq_ofNat, BitVec.toNat_ofNat, Nat.zero_mod]
  omega

@[simp] theorem fieldIMM_assemble (op : BitVec 4) (v : Voice) (c : BitVec 4) (imm : Half) :
    fieldIMM (assemble op v c imm) = imm := by
  apply BitVec.eq_of_toNat_eq
  rw [fieldIMM_toNat, assemble_toNat]
  have := op.isLt; have := v.isLt; have := c.isLt; have := imm.isLt
  omega

/-- A word with RSV = 0 is put together from its fields. -/
theorem assemble_fields (w : Word) (h : fieldRSV w = 0) : assemble (fieldOP w) (fieldV w) (fieldC w) (fieldIMM w) = w := by
  apply BitVec.eq_of_toNat_eq
  have hr := congrArg BitVec.toNat h
  rw [fieldRSV_toNat] at hr
  rw [assemble_toNat, fieldOP_toNat, fieldV_toNat, fieldC_toNat, fieldIMM_toNat]
  have := w.isLt
  simp only [BitVec.ofNat_eq_ofNat, BitVec.toNat_ofNat, Nat.zero_mod] at hr
  omega

/-- The mask of SET's row of the opcode table looks at bits [15:0] only. -/
theorem and_lowMask {x y : Word} (h : x.toNat % 65536 = y.toNat % 65536) : x &&& 0x0000FC0F = y &&& 0x0000FC0F := by
  have hlow : ∀ z : Word, (z &&& 0x0000FC0F).toNat = z.toNat % 65536 &&& 0xFC0F := fun z => by
    have hm := Nat.and_mod_two_pow (a := z.toNat) (b := 0xFC0F) (n := 16)
    have hle : z.toNat &&& 0xFC0F ≤ 0xFC0F := Nat.and_le_right
    rw [Nat.mod_eq_of_lt (by omega)] at hm
    simpa [BitVec.toNat_and] using hm
  exact BitVec.eq_of_toNat_eq (by rw [hlow, hlow, h])

/-! ### The words of the registers (10_state.md R30 to R37) -/

theorem packFound_toNat (a b c d : Byte) :
    (packFound [a, b, c, d]).toNat = a.toNat + 256 * b.toNat + 65536 * c.toNat + 16777216 * d.toNat := by
  have h : (BitVec.toNat (w := 8 + 8 + 8 + 8) (d ++ c ++ b ++ a))
      = a.toNat + 256 * b.toNat + 65536 * c.toNat + 16777216 * d.toNat := by
    simp only [toNat_append_eq]
    omega
  exact h

/-- The number in the low bit of a format's code. -/
theorem formatBit_toNat (f : Format) : ((formatCode f).extractLsb' 0 1).toNat = if f = .format2 then 1 else 0 := by
  cases f <;> rfl

theorem statusWord_toNat (s : State) :
    (statusWord s).toNat
      = (errNumber s.err).toNat + (if s.kitValid then 16 else 0) + (if s.format = .format2 then 32 else 0) := by
  have h : (BitVec.toNat (w := 26 + 1 + 1 + 4)
      ((0 : BitVec 26) ++ (formatCode s.format).extractLsb' 0 1 ++ BitVec.ofBool s.kitValid ++ errNumber s.err))
      = (errNumber s.err).toNat + (if s.kitValid then 16 else 0) + (if s.format = .format2 then 32 else 0) := by
    simp only [toNat_append_eq, formatBit_toNat, BitVec.toNat_ofBool, BitVec.ofNat_eq_ofNat, BitVec.toNat_ofNat, Nat.zero_mod]
    cases s.kitValid <;> cases s.format <;> simp <;> omega
  exact h

theorem srcCtrlWord_toNat (s : State) : (srcCtrlWord s).toNat = if s.srcErr then 1 else 0 := by
  have h : (BitVec.toNat (w := 31 + 1) ((0 : BitVec 31) ++ BitVec.ofBool s.srcErr)) = if s.srcErr then 1 else 0 := by
    simp only [toNat_append_eq, BitVec.toNat_ofBool, BitVec.ofNat_eq_ofNat, BitVec.toNat_ofNat, Nat.zero_mod]
    cases s.srcErr <;> simp
  exact h

theorem errInfoWord_toNat (s : State) : (errInfoWord s).toNat = s.errVoice.toNat + 256 * s.errCtrl.toNat := by
  have h : (BitVec.toNat (w := 20 + 4 + 6 + 2) ((0 : BitVec 20) ++ s.errCtrl ++ (0 : BitVec 6) ++ s.errVoice))
      = s.errVoice.toNat + 256 * s.errCtrl.toNat := by
    simp only [toNat_append_eq, BitVec.ofNat_eq_ofNat, BitVec.toNat_ofNat, Nat.zero_mod]
    omega
  exact h

end Sys2Proof.Laws
end

