-- ==== Sys2Proof/Laws/Claims.lean ====
section
/-! SUPPORT. The terms of Safety.lean in the terms of the model: markers, found words, what the host does between a
LOAD and a SAVE, the words that leave the kit. -/

namespace Sys2Proof.Laws

open Sys2Proof.Machine Sys2Proof.Safety

/-- The marker stands in a window exactly when the marker_validator accepts it. -/
theorem markerAt_iff (p : Params) (buf : Memory) (fmt : Format) (v : Voice) :
    MarkerAt p buf fmt v ↔ markerOK (foundMarker p buf v fmt) = true := by
  rw [markerOK_foundMarker_iff, MarkerAt]
  constructor
  · rintro ⟨h0, h1, h2, h3⟩ k hk
    rcases (by omega : k = 0 ∨ k = 1 ∨ k = 2 ∨ k = 3) with rfl | rfl | rfl | rfl <;> assumption
  · intro h
    exact ⟨h 0 (by omega), h 1 (by omega), h 2 (by omega), h 3 (by omega)⟩

/-- ERR_FOUND as the claims write it. -/
theorem packFound_foundMarker (p : Params) (buf : Memory) (fmt : Format) (v : Voice) :
    packFound (foundMarker p buf v fmt) = foundWord p buf fmt v := by
  have hlist : foundMarker p buf v fmt = [Memory.read buf (vbase p v fmt + 4), Memory.read buf (vbase p v fmt + 5),
      Memory.read buf (vbase p v fmt + 6), Memory.read buf (vbase p v fmt + 7)] := rfl
  apply BitVec.eq_of_toNat_eq
  rw [hlist, packFound_toNat, foundWord, BitVec.toNat_ofNat]
  have h0 := (Memory.read buf (vbase p v fmt + 4)).isLt
  have h1 := (Memory.read buf (vbase p v fmt + 5)).isLt
  have h2 := (Memory.read buf (vbase p v fmt + 6)).isLt
  have h3 := (Memory.read buf (vbase p v fmt + 7)).isLt
  omega

/-! ### What the host does between a LOAD and a SAVE -/

@[simp] theorem event_other (p : Params) (e : Event) : Action.event p (.other e) = e := rfl

@[simp] theorem event_set (p : Params) (v : Voice) (c : Control) (imm : Half) :
    Action.event p (.set v c imm) = commandWrite p (encode (.set v (controlCode c) imm)) := rfl

@[simp] theorem completedSets_nil : completedSets [] = [] := rfl

@[simp] theorem completedSets_other (e : Event) (rest : List Action) :
    completedSets (.other e :: rest) = completedSets rest := rfl

theorem completedSets_set_of_inRange {v : Voice} {c : Control} {imm : Half} (h : InRange c imm.toInt) (rest : List Action) :
    completedSets (.set v c imm :: rest) = (v, c, imm) :: completedSets rest := by rw [completedSets, if_pos h]

theorem completedSets_set_of_not_inRange {v : Voice} {c : Control} {imm : Half} (h : ¬ InRange c imm.toInt)
    (rest : List Action) : completedSets (.set v c imm :: rest) = completedSets rest := by rw [completedSets, if_neg h]

/-- Every SET of a control is a command some word encodes. -/
@[simp] theorem wellFormed_set (v : Voice) (c : Control) (imm : Half) : (Instr.set v (controlCode c) imm).WellFormed := by
  cases c <;> rfl

/-! ### Words that leave the kit -/

/-- A word that decodes to a SET is not illegal (30_encoding.md R95). -/
theorem not_illegalWord_of_set {w : Word} {v : Voice} {c : BitVec 4} {imm : Half} (h : decode w = .ok (.set v c imm)) :
    ¬ IllegalWord w := by
  unfold decode decodeNoOperand decodeGet decodeSet at h
  have hop := fieldOP_toNat w
  have hc := fieldC_toNat w
  have hrsv := fieldRSV_toNat w
  split at h
  · cases h
  · rename_i hr
    rw [not_not] at hr
    rw [hr] at hrsv
    simp only [BitVec.ofNat_eq_ofNat, BitVec.toNat_ofNat, Nat.zero_mod] at hrsv
    repeat' (split at h)
    all_goals cases h
    simp only [IllegalWord, bits]
    omega

/-- The events that leave the kit: a CMD write of them decodes to DETECT, SAVE, GET or to nothing. -/
theorem leavesKit_decode {p : Params} {w : Word} {i : Instr} (h : LeavesKit p (.wr32 p.hostBase w))
    (hd : decode w = .ok i) : i = .detect ∨ i = .save ∨ ∃ v c, i = .get v c := by
  obtain ⟨h2, h5⟩ := h rfl
  have hset := fun v c imm => not_illegalWord_of_set (w := w) (v := v) (c := c) (imm := imm)
  rw [hd] at hset
  unfold decode at hd
  split at hd
  · cases hd
  · rename_i hr
    rw [not_not] at hr
    have hop := fieldOP_toNat w
    split at hd
    · unfold decodeNoOperand at hd; split at hd <;> cases hd; exact .inl rfl
    · unfold decodeNoOperand at hd
      split at hd <;> cases hd
      rename_i h1 hz
      refine absurd ?_ h2
      have hw := assemble_fields w hr
      rw [hz.1, hz.2.1, hz.2.2] at hw
      rw [← hw, assemble_toNat]
      simp only [BitVec.ofNat_eq_ofNat, BitVec.toNat_ofNat]
      omega
    · unfold decodeNoOperand at hd; split at hd <;> cases hd; exact .inr (.inl rfl)
    · unfold decodeGet at hd
      split at hd
      · cases hd
      · split at hd <;> cases hd; exact .inr (.inr ⟨_, _, rfl⟩)
    · unfold decodeSet at hd
      split at hd <;> cases hd
      exact absurd (h5 (by simp only [bits]; omega)) (hset _ _ _ rfl)
    · cases hd

end Sys2Proof.Laws
end

