-- ==== Sys2Proof/Laws/PerInstr.lean ====
section
/-! SUPPORT. What is said of each instruction as syntax: the word of a command fits the mask and match of its own row of
opcode_table.json and carries the operands in the row's fields. -/

namespace Sys2Proof.Laws.TableRow

/-- The mask of a constructor's row (opcode_table.json): 1 where the row fixes the bit. -/
def mask : Instr → Word
  | .detect => 0xFFFFFFFF
  | .load => 0xFFFFFFFF
  | .save => 0xFFFFFFFF
  | .get _ _ => 0xFFFFFC0F
  | .set _ _ _ => 0x0000FC0F

/-- The fixed bits of a constructor's row (opcode_table.json). -/
def fixedBits : Instr → Word
  | .detect => 0x00000001
  | .load => 0x00000002
  | .save => 0x00000003
  | .get _ _ => 0x00000004
  | .set _ _ _ => 0x00000005

/-- The operand fields of a word are those of an instruction. -/
def Operands (w : Word) : Instr → Prop
  | .detect => True
  | .load => True
  | .save => True
  | .get v c => fieldV w = v ∧ fieldC w = c
  | .set v c imm => fieldV w = v ∧ fieldC w = c ∧ fieldIMM w = imm

/-- The word of an instruction fits its own row of the opcode table, and carries its operands in the row's fields. -/
def Statement (i : Instr) : Prop := encode i &&& mask i = fixedBits i ∧ Operands (encode i) i

theorem detect : Statement .detect := ⟨by decide, trivial⟩

theorem load : Statement .load := ⟨by decide, trivial⟩

theorem save : Statement .save := ⟨by decide, trivial⟩

theorem get (v : Voice) (c : BitVec 4) : Statement (.get v c) := by
  have hall : ∀ (v : Voice) (c : BitVec 4), encode (.get v c) &&& mask (.get v c) = fixedBits (.get v c) := by decide
  exact ⟨hall v c, fieldV_assemble _ _ _ _, fieldC_assemble _ _ _ _⟩

theorem set (v : Voice) (c : BitVec 4) (imm : Half) : Statement (.set v c imm) := by
  have hall : ∀ (v : Voice) (c : BitVec 4), encode (.set v c 0) &&& 0x0000FC0F = 0x00000005 := by decide
  refine ⟨?_, fieldV_assemble _ _ _ _, fieldC_assemble _ _ _ _, fieldIMM_assemble _ _ _ _⟩
  refine (and_lowMask ?_).trans (hall v c)
  simp only [encode, assemble_toNat]
  simp

end Sys2Proof.Laws.TableRow
end

