-- ==== Sys2Proof/Tests/Slice0.lean ====
section
/-! SUPPORT. Tests: the checks of WellFormed and of the parameters, words written out from the spec, at most two steps of
each command with the values of 95_test_vectors.md, and for every statement with hypotheses a state that meets them. -/

namespace Sys2Proof.Tests

open Sys2Proof.Machine Sys2Proof.Safety Sys2Proof.Laws

/-! ### The records of 95_test_vectors.md, section 0 -/

/-- Voice v's window of Rec(fmt). -/
def recVoice (fmt : Format) (v : Nat) : List Byte :=
  [BitVec.ofNat 8 (v % 3), BitVec.ofNat 8 ((v + 1) % 3), BitVec.ofNat 8 ((v + 2) % 3), BitVec.ofNat 8 (0x43 + 0x20 * v),
   0x1A, 0x18, 0x0A, 0x16]
    ++ (List.range ((if v = 3 then (match fmt with | .format1 => 30 | .format2 => 32) else 26) - 8)).map fun k =>
      BitVec.ofNat 8 (0x48 + 0x20 * v + k)

/-- Rec(fmt)'s header. -/
def recHeader (fmt : Format) : List Byte :=
  (List.range (match fmt with | .format1 => 57 | .format2 => 59)).map fun i => BitVec.ofNat 8 (0x20 + i)

/-- Rec(fmt): B1 for FORMAT_1, B2 for FORMAT_2. -/
def record (fmt : Format) : List Byte :=
  recHeader fmt ++ recVoice fmt 0 ++ recVoice fmt 1 ++ recVoice fmt 2 ++ recVoice fmt 3

/-- Reset, then a record in IN and a length in IN_LEN. -/
def input (fmt : Format) (len : Half) : State :=
  { State.reset with inBuf := Memory.ofBytes (record fmt), inLen := len }

/-- B1 in IN with one byte changed. -/
def patched (a : Nat) (b : Byte) : State := { input .format1 165 with inBuf := Memory.ofBytes ((record .format1).set a b) }

/-- The kit of B1 as 95_test_vectors.md 2.5 gives it, with B1 in IN. -/
def kitB1 : State :=
  { input .format1 165 with
    kitValid := true
    hs := Memory.ofBytes (recHeader .format1)
    vs := Memory.ofBytes (recVoice .format1 0 ++ List.replicate 6 0 ++ recVoice .format1 1 ++ List.replicate 6 0
      ++ recVoice .format1 2 ++ List.replicate 6 0 ++ recVoice .format1 3) }

/-- What a field of the next state is. -/
def after {α : Type} (o : Host.Outcome State Fault Refusal) (f : State → α) : Option α :=
  match o with
  | .next t => some (f t)
  | .fault _ => none
  | .refused _ => none

/-! ### WellFormed and the parameters -/

theorem test_wellFormed_refuses_control_11 : (Instr.get 0 11).wellFormed = false ∧ (Instr.set 3 11 0).wellFormed = false := by
  decide

theorem test_wellFormed_refuses_control_15 : (Instr.get 3 15).wellFormed = false ∧ (Instr.set 0 15 2).wellFormed = false := by
  decide

theorem test_wellFormed_accepts_control_10 : (Instr.get 3 10).wellFormed = true ∧ (Instr.set 3 10 0xFFFF).wellFormed = true := by
  decide

/-- 00_scope.md R9: the totals may not be equal, offsets not repeated nor on the marker, capacities not below a record. -/
theorem test_illegal_parameters_refused :
    ({ Params.spec with hdrLenF1 := 57, hdrLenF2 := 55 } : Params).legal = false ∧
    ({ Params.spec with hdrLenF1 := 60 } : Params).legal = false ∧
    ({ Params.spec with hdrLenF2 := 46 } : Params).legal = false ∧
    ({ Params.spec with ctrlOff := { Params.spec.ctrlOff with mode := 0 } } : Params).legal = false ∧
    ({ Params.spec with ctrlOff := { Params.spec.ctrlOff with mode := 4 } } : Params).legal = false ∧
    ({ Params.spec with ctrlOff := { Params.spec.ctrlOff with mode := 26 } } : Params).legal = false ∧
    ({ Params.spec with inCap := 168 } : Params).legal = false ∧
    ({ Params.spec with outCap := 257 } : Params).legal = false := by decide

/-! ### Decoding: words written out from 30_encoding.md R91 (IMM, RSV, C, V, OP) -/

theorem test_decode_detect : decode 0b0000000000000000_000000_0000_00_0001 = .ok .detect := rfl
theorem test_decode_load : decode 0b0000000000000000_000000_0000_00_0010 = .ok .load := rfl
theorem test_decode_save : decode 0b0000000000000000_000000_0000_00_0011 = .ok .save := rfl
theorem test_decode_get : decode 0b0000000000000000_000000_1010_11_0100 = .ok (.get 3 10) := rfl
theorem test_decode_set : decode 0b0000000010000000_000000_0011_01_0101 = .ok (.set 1 3 128) := rfl
theorem test_decode_set_minus_one : decode 0xFFFF0005 = .ok (.set 0 0 0xFFFF) := rfl

/-- The illegal words of 95_test_vectors.md 2.1. -/
theorem test_decode_illegal_words :
    decode 0x00000000 = .error .reservedOpcode ∧ decode 0x00000006 = .error .reservedOpcode ∧
    decode 0x0000000F = .error .reservedOpcode ∧ decode 0x00000011 = .error .unusedField ∧
    decode 0x00000401 = .error .reservedField ∧ decode 0x00010001 = .error .unusedField ∧
    decode 0x000002C4 = .error .controlField ∧ decode 0x000003C4 = .error .controlField ∧
    decode 0x000100B4 = .error .unusedField ∧ decode 0x0000FC05 = .error .reservedField ∧
    decode 0x000002D4 = .error .controlField := ⟨rfl, rfl, rfl, rfl, rfl, rfl, rfl, rfl, rfl, rfl, rfl⟩

/-- The words of 95_test_vectors.md 2.3 and 2.4. -/
theorem test_encode_words :
    encode (.get 0 10) = 0x00000284 ∧ encode (.get 2 3) = 0x000000E4 ∧ encode (.set 1 10 0x8000) = 0x80000295 ∧
    encode (.set 1 2 0x7FFF) = 0x7FFF0095 := by decide

/-- The pseudo-instructions of 30_encoding.md R101, with the accesses program P1 of 95_test_vectors.md gives them. -/
theorem test_pseudo_instructions :
    issue Params.spec (.get 3 10) = [.wr32 0x000 0x000002B4] ∧ setLen Params.spec 165 = [.wr32 0x00C 0x000000A5] ∧
    inFill Params.spec 0xA3 [0xBC, 0xBD] = [.wr8 0x1A3 0xBC, .wr8 0x1A4 0xBD] ∧
    srcErrEvents Params.spec true = [.wr32 0x014 0x00000001] ∧ checkEvents Params.spec 0x004 = [.rd32 0x004] := by decide

/-! ### One step of each command (95_test_vectors.md 2.2 to 2.5) -/

/-- 2.2: B2, length 169: FORMAT_2. -/
theorem test_detect_format2 :
    after (exec .detect (input .format2 169)) (fun t => (t.result, t.err, t.kitValid)) = some (1, .ok, false) := by
  decide +kernel

/-- 2.2: B1 at FORMAT_2's length: the first bytes read as a marker are voice 0's. -/
theorem test_detect_wrong_alignment :
    after (exec .detect (input .format1 169)) (fun t => (t.err, t.errVoice, t.errFound)) =
      some (.markerMismatch, 0, 0x4948160A) := by decide +kernel

/-- 2.5: Load B1. -/
theorem test_load_b1 :
    after (exec .load (input .format1 165)) (fun t => (t.hs, t.vs, regRead t .status)) =
      some (kitB1.hs, kitB1.vs, 0x10) := by decide +kernel

/-- 2.2, S6: B1 with byte 113 XOR 0xFF. -/
theorem test_load_bad_marker :
    after (exec .load (patched 113 0xE5)) (fun t => (regRead t .status, regRead t .errInfo, t.errFound)) =
      some (0x02, 0x002, 0x160A18E5) := by decide +kernel

/-- 2.5: Load B1, then SAVE. -/
theorem test_save_b1 :
    after (exec .save kitB1) (fun t => (t.outBuf, t.outLen, t.result, regRead t .status)) =
      some (Memory.ofBytes (record .format1), 165, 0xA5, 0x10) := by decide +kernel

/-- P3: voice 2's `algo` is 5. -/
theorem test_save_out_of_range :
    after (exec .save { kitB1 with vs := Memory.write kitB1.vs 64 5 })
        (fun t => (regRead t .status, regRead t .errInfo, t.errValue, t.outLen)) =
      some (0x13, 0x002, 0x0005, 0) := by decide +kernel

/-- 2.3: GET 3, level. -/
theorem test_get_level : after (exec (.get 3 10) kitB1) (fun t => t.result) = some 0xAE := by decide +kernel

/-- 2.3: GET from reset. -/
theorem test_get_no_kit :
    after (step (State.reset.withFetchWord 32 0x00000004)) (fun t => (regRead t .status, t.result)) = some (0x06, 0) := by
  decide +kernel

/-- 2.4: SET 1, tune, 128. -/
theorem test_set_tune :
    after (exec (.set 1 3 128) kitB1) (fun t => (Memory.read t.vs (32 + 3), regRead t .status)) = some (0x80, 0x10) := by
  decide +kernel

/-- 2.4: SET 1, tune, 256. -/
theorem test_set_tune_256 :
    after (exec (.set 1 3 256) kitB1)
        (fun t => (Memory.read t.vs (32 + 3), regRead t .status, regRead t .errInfo, regRead t .errValue)) =
      some (0x63, 0x13, 0x301, 0x100) := by decide +kernel

/-! ### Witnesses: for each statement with hypotheses, values that meet them together -/

/-- The machine with capacities of one record, so that IN and OUT leave reserved offsets behind them. -/
def smallCaps : Config := { p := { Params.spec with inCap := 169, outCap := 169, hostBase := 0x4000 }, legal := by decide }

/-- A state with these events waiting. -/
def waiting (s : State) (es : List Event) : State := { s with events := es }

theorem witness_EncodedCommandDecodesBack : (Instr.get 3 10).WellFormed ∧ (Instr.set 0 0 0x8000).WellFormed := by decide

theorem witness_DecodedWordEncodesBack : decode 0xFFFF02B5 = .ok (.set 3 10 0xFFFF) := rfl

/-- Each ground of R95 at a boundary, and a word that is not illegal. -/
theorem witness_EveryWordIsACommandOrIllegal :
    IllegalWord 0x00000000 ∧ IllegalWord 0x00000006 ∧ IllegalWord 0x00000401 ∧ IllegalWord 0x00000011 ∧
      IllegalWord 0x00010004 ∧ IllegalWord 0x000002C5 ∧ ¬ IllegalWord 0xFFFF02B5 := by
  refine ⟨?_, ?_, ?_, ?_, ?_, ?_, ?_⟩ <;> (unfold IllegalWord bits; decide)

theorem witness_IllegalWordRaisesIllegalCommand :
    (waiting kitB1 [commandWrite kitB1.cfg.p 0x0000FC05]).events = commandWrite kitB1.cfg.p 0x0000FC05 :: [] ∧
      IllegalWord 0x0000FC05 := by
  unfold IllegalWord bits; exact ⟨rfl, by decide⟩

theorem witness_StepRunsTheCommandWritten :
    (State.reset.withFetchWord 32 0x00000005).events = commandWrite State.reset.cfg.p 0x00000005 :: [] ∧
      decode 0x00000005 = .ok (.set 0 0 0) := ⟨rfl, rfl⟩

theorem witness_StepTakesExactlyOneEvent :
    State.reset.events = [] ∧
      ∃ t, (waiting State.reset [.rd32 0]).events = .rd32 0 :: [] ∧ step (waiting State.reset [.rd32 0]) = .next t :=
  ⟨rfl, _, rfl, rfl⟩

/-- Every clause at both ends of its ranges. -/
theorem witness_AccessesOutsideTheProtocolAreRefused :
    smallCaps.p.inCap = 169 ∧ smallCaps.p.outCap = 169 ∧
    (∀ off ∈ [0x24, 0xFF], 0x24 ≤ off ∧ off < 0x100) ∧ (∀ off ∈ [0x1A9, 0x1FF], 0x100 + smallCaps.p.inCap ≤ off ∧ off < 0x200) ∧
    (∀ off ∈ [0x2A9, 0x2FF], 0x200 + smallCaps.p.outCap ≤ off ∧ off < 0x300) ∧
    (∀ off ∈ [0x01, 0x23], off < 0x24 ∧ off % 4 ≠ 0) ∧
    (∀ off ∈ [0x100, 0x1A8], 0x100 ≤ off ∧ off < 0x100 + smallCaps.p.inCap) ∧
    (∀ off ∈ [0x200, 0x2A8], 0x200 ≤ off ∧ off < 0x200 + smallCaps.p.outCap) ∧
    (waiting kitB1 [.otherWidth 16 0x23]).events = .otherWidth 16 (kitB1.cfg.p.hostBase + 0x23) :: [] := by decide

theorem witness_ProtocolEventsAnswer :
    InProtocol State.reset.cfg.p (.rd8 0x1FF) ∧ ¬ InProtocol State.reset.cfg.p (.rd8 0x300) ∧
      (waiting State.reset [.rd8 0x1FF]).events = .rd8 0x1FF :: [] := by
  unfold InProtocol BufferAddress; decide

theorem witness_ProtocolRunNeverStops :
    ∀ e ∈ (waiting State.reset [.wr32 0x20 1, .wr8 0x2FF 7, .rd32 0, .reset ⟨[], [], [], []⟩]).events,
      InProtocol State.reset.cfg.p e := by
  simp [waiting, InProtocol, RegisterAddress, BufferAddress, State.reset, Config.spec, Params.spec]

theorem witness_ReadOnlyRegistersAndReservedBitsIgnoreWrites :
    (∀ off ∈ [0x04, 0x20], (waiting kitB1 [.wr32 off 0xFFFFFFFF]).events = .wr32 (kitB1.cfg.p.hostBase + off) 0xFFFFFFFF :: []) ∧
    (waiting kitB1 [.wr32 0x0C 0x1FFFF]).events = .wr32 (kitB1.cfg.p.hostBase + 0x0C) 0x1FFFF :: [] ∧
    (waiting kitB1 [.wr32 0x14 3]).events = .wr32 (kitB1.cfg.p.hostBase + 0x14) 3 :: [] := by decide

theorem witness_HostReadsReturnAndChangeNothing :
    (waiting kitB1 [.rd32 0x20]).events = .rd32 (kitB1.cfg.p.hostBase + 0x20) :: [] ∧
    255 < kitB1.cfg.p.inCap ∧ (waiting kitB1 [.rd8 0x1FF]).events = .rd8 (kitB1.cfg.p.hostBase + 0x100 + 255) :: [] ∧
    255 < kitB1.cfg.p.outCap ∧ (waiting kitB1 [.rd8 0x2FF]).events = .rd8 (kitB1.cfg.p.hostBase + 0x200 + 255) :: [] := by
  decide

theorem witness_InputBufferIsHostMemory :
    255 < State.reset.cfg.p.inCap ∧
    (waiting State.reset [.wr8 0x1FF 1]).events = .wr8 (State.reset.cfg.p.hostBase + 0x100 + 255) 1 :: [] ∧
    (waiting State.reset [.rd8 0x100]).events = .rd8 (State.reset.cfg.p.hostBase + 0x100 + 0) :: [] := by decide

theorem witness_OutputBufferIsReadOnlyToTheHost :
    255 < State.reset.cfg.p.outCap ∧
    (waiting State.reset [.rd8 0x2FF]).events = .rd8 (State.reset.cfg.p.hostBase + 0x200 + 255) :: [] ∧
    (waiting State.reset [.wr8 0x200 1]).events = .wr8 (State.reset.cfg.p.hostBase + 0x200 + 0) 1 :: [] := by decide

theorem witness_ResetZeroesRegistersAndLeavesStoresOpen :
    (waiting kitB1 [.reset ⟨[1], [2], [3], [4]⟩]).events = .reset ⟨[1], [2], [3], [4]⟩ :: [] := rfl

theorem witness_ResetForgetsAllButParametersAndTheRunsRecord :
    State.reset.cfg = kitB1.cfg ∧
    (waiting kitB1 [.reset ⟨[1], [2], [3], [4]⟩, .rd32 0]).events = .reset ⟨[1], [2], [3], [4]⟩ :: [.rd32 0] ∧
    (waiting State.reset [.reset ⟨[1], [2], [3], [4]⟩]).events = .reset ⟨[1], [2], [3], [4]⟩ :: [] := ⟨rfl, rfl, rfl⟩

/-- B1 and B2 in IN, each at its own length. -/
theorem markers_b1 : ∀ v, MarkerAt Params.spec (Memory.ofBytes (record .format1)) .format1 v := by
  unfold MarkerAt; decide +kernel

theorem markers_b2 : ∀ v, MarkerAt Params.spec (Memory.ofBytes (record .format2)) .format2 v := by
  unfold MarkerAt; decide +kernel

theorem toggles_b1 : TogglesInRange Params.spec (Memory.ofBytes (record .format1)) .format1 := by
  intro v c hc
  rcases hc with rfl | rfl | rfl <;> revert v <;> decide +kernel

theorem witness_DetectCompletes :
    ((input .format1 165).srcErr = false ∧ (input .format1 165).inLen.toNat = total (input .format1 165).cfg.p .format1 ∧
      ∀ v, MarkerAt (input .format1 165).cfg.p (input .format1 165).inBuf .format1 v) ∧
    ((input .format2 169).srcErr = false ∧ (input .format2 169).inLen.toNat = total (input .format2 169).cfg.p .format2 ∧
      ∀ v, MarkerAt (input .format2 169).cfg.p (input .format2 169).inBuf .format2 v) :=
  ⟨⟨rfl, rfl, markers_b1⟩, ⟨rfl, rfl, markers_b2⟩⟩

theorem witness_LoadReplacesTheKit :
    (input .format2 169).srcErr = false ∧ (input .format2 169).inLen.toNat = total (input .format2 169).cfg.p .format2 ∧
      ∀ v, MarkerAt (input .format2 169).cfg.p (input .format2 169).inBuf .format2 v :=
  ⟨rfl, rfl, markers_b2⟩

theorem witness_SourceErrorIsRaisedFirst :
    ({ input .format1 165 with srcErr := true } : State).srcErr = true ∧
      ∃ t, Instr.get 0 0 ≠ .detect ∧ Instr.get 0 0 ≠ .load ∧ exec (.get 0 0) kitB1 = .next t :=
  ⟨rfl, _, by decide, by decide, rfl⟩

/-- One byte short, between the totals, above IN_CAP. -/
theorem witness_LengthMismatchRaisesMalformedRecord :
    ∀ len ∈ [(164 : Half), 167, 300], (input .format1 len).srcErr = false ∧
      (input .format1 len).inLen.toNat ≠ total Params.spec .format1 ∧
      (input .format1 len).inLen.toNat ≠ total Params.spec .format2 := by
  have hlen : ∀ len ∈ [(164 : Half), 167, 300], len.toNat ≠ 165 ∧ len.toNat ≠ 169 := by simp
  exact fun len h => ⟨rfl, hlen len h⟩

theorem witness_LowestBadMarkerIsReported :
    (patched 113 0xE5).srcErr = false ∧ (patched 113 0xE5).inLen.toNat = total Params.spec .format1 ∧
      ¬ MarkerAt Params.spec (patched 113 0xE5).inBuf .format1 2 ∧
      ∀ u : Voice, u.toNat < (2 : Voice).toNat → MarkerAt Params.spec (patched 113 0xE5).inBuf .format1 u := by
  refine ⟨rfl, rfl, ?_, ?_⟩ <;> (unfold MarkerAt; decide +kernel)

/-- A next state, from a field of it that was computed. -/
theorem next_of_after {α : Type} {o : Host.Outcome State Fault Refusal} {f : State → α} {x : α} (h : after o f = some x) :
    ∃ t, o = .next t ∧ f t = x := by
  cases o with
  | next t => exact ⟨t, rfl, Option.some.inj h⟩
  | fault r => cases h
  | refused r => cases h

theorem witness_ChangedMarkerByteIsDetected :
    (∃ t, exec .detect (input .format1 165) = .next t ∧ t.err = .ok) ∧
      (input .format1 165).inLen.toNat = total (input .format1 165).cfg.p .format1 ∧ 3 < 4 ∧
      (0 : Byte) ≠ Memory.read (input .format1 165).inBuf (vbase (input .format1 165).cfg.p 3 .format1 + 4 + 3) :=
  ⟨next_of_after (by decide +kernel), rfl, by decide, by decide +kernel⟩

/-- A LOAD that fails while a kit is held. -/
theorem witness_FailedLoadKeepsTheKit :
    ∃ t, exec .load { kitB1 with inLen := 164 } = .next t ∧ t.err = .malformedRecord := next_of_after (by decide +kernel)

theorem witness_DetectWritesNoKitState : ∃ t, exec .detect kitB1 = .next t ∧ t.err = .ok := next_of_after (by decide +kernel)

theorem witness_GetReturnsTheControlByte : kitB1.kitValid = true := rfl

/-- The ends of both ranges. -/
theorem witness_SetWritesOneControlByte :
    kitB1.kitValid = true ∧ InRange .algo (0 : Half).toInt ∧ InRange .vcf (2 : Half).toInt ∧ InRange .tune (0 : Half).toInt ∧
      InRange .level (255 : Half).toInt := by
  refine ⟨rfl, ?_, ?_, ?_, ?_⟩ <;> (unfold InRange; decide)

theorem witness_NoKitIsRaisedWithoutAKit : (input .format1 165).kitValid = false := rfl

theorem witness_UnnamedControlIsAnIllegalCommand : 11 ≤ (11 : BitVec 4).toNat ∧ 11 ≤ (15 : BitVec 4).toNat := by decide

/-- The kit of B1 with voice 1's `vcf` 3 and voice 3's `mode` 9 (95_test_vectors.md 2.5). -/
def badKit : State := { kitB1 with vs := Memory.write (Memory.write kitB1.vs 34 3) 97 9 }

theorem badKit_first :
    BadControl badKit 1 .vcf ∧ (∀ d, (controlCode d).toNat < (controlCode .vcf).toNat → ¬ BadControl badKit 1 d) ∧
      ∀ d, ¬ BadControl badKit 0 d := by
  refine ⟨?_, fun d hd => ?_, fun d => ?_⟩ <;> unfold BadControl InRange
  · decide +kernel
  · cases d <;> first | decide +kernel | exact absurd hd (by decide)
  · cases d <;> decide +kernel

/-- The first value outside each range, and a kit whose first bad control is known. -/
theorem witness_OutOfRangeNamesVoiceControlAndValue :
    kitB1.kitValid = true ∧ ¬ InRange .algo (3 : Half).toInt ∧ ¬ InRange .tune (256 : Half).toInt ∧
      ¬ InRange .level (0xFFFF : Half).toInt ∧ badKit.kitValid = true ∧ FirstBadControl badKit 1 .vcf := by
  refine ⟨rfl, ?_, ?_, ?_, rfl, badKit_first.1, fun u d hu => ?_, badKit_first.2.1⟩
  · unfold InRange; decide
  · unfold InRange; decide
  · unfold InRange; decide
  · obtain rfl : u = 0 := BitVec.eq_of_toNat_eq (by simpa using hu)
    exact badKit_first.2.2 d

theorem witness_GetAfterSetReadsItBack : ∃ t, exec (.set 1 (controlCode .tune) 128) kitB1 = .next t ∧ t.err = .ok :=
  next_of_after (by decide +kernel)

/-- A SET answers; offsets 4, 7 and 31 are no control's. -/
theorem witness_OnlyLoadChangesBytesThatAreNoControl :
    (Instr.set 1 3 128 ≠ .load) ∧ (∃ t, exec (.set 1 3 128) kitB1 = .next t ∧ t.err = .ok) ∧
      (∀ o ∈ [4, 7, 31], o < 32 ∧ ∀ c, o ≠ ctrlOff kitB1.cfg.p c) := by
  refine ⟨by decide, next_of_after (by decide +kernel), ?_⟩
  simp only [List.forall_mem_cons]
  refine ⟨⟨by decide, fun c => ?_⟩, ⟨by decide, fun c => ?_⟩, ⟨by decide, fun c => ?_⟩, by simp⟩ <;> cases c <;> decide

/-- A LOAD that changes FORMAT and KIT_VALID, and a reset that drops the kit. -/
theorem witness_KitValidAndFormatChangeOnlyByLoadOrReset :
    (∃ t, step (waiting (input .format2 169) [.wr32 0 2]) = .next t ∧ (t.kitValid, t.format) = (true, .format2)) ∧
      (∃ t, step (waiting kitB1 [.reset ⟨[], [], [], []⟩]) = .next t ∧ t.kitValid = false) ∧ kitB1.kitValid = true :=
  ⟨next_of_after (by decide +kernel), next_of_after (by decide +kernel), rfl⟩

theorem kitB1_good (v : Voice) (c : Control) : ¬ BadControl kitB1 v c := by
  unfold BadControl InRange
  cases c <;> revert v <;> decide +kernel

theorem witness_SaveWritesTheRecord : kitB1.kitValid = true ∧ ∀ v c, ¬ BadControl kitB1 v c := ⟨rfl, kitB1_good⟩

/-- A SAVE that completes, and one that does not. -/
theorem save_kitB1 : ∃ t, exec .save kitB1 = .next t ∧ t.err = .ok := next_of_after (by decide +kernel)

theorem save_badKit : ∃ t, exec .save badKit = .next t ∧ t.err = .outOfRange := next_of_after (by decide +kernel)

theorem witness_SaveKeepsTheKit : ∃ t, exec .save badKit = .next t ∧ t.err = .outOfRange := save_badKit

theorem witness_SaveWritesExactlyItsRecordsBytes :
    (∃ t, exec .save kitB1 = .next t ∧ t.err = .ok) ∧ (∃ u, exec .save { kitB1 with outBuf := [(0, 1), (200, 2)] } = .next u) ∧
      ∃ t, exec .save badKit = .next t ∧ t.err = .outOfRange :=
  ⟨save_kitB1, ⟨_, rfl⟩, save_badKit⟩

theorem witness_SavedRecordCarriesTheMarkers : ∃ t, exec .save kitB1 = .next t ∧ t.err = .ok := save_kitB1

theorem witness_ErrorsArePrecise :
    (∃ t, exec .save kitB1 = .next t ∧ t.err = .ok) ∧ ∃ t, exec .save badKit = .next t ∧ t.err = .outOfRange :=
  ⟨save_kitB1, save_badKit⟩

theorem witness_RepeatedCommandRaisesTheSameError : ∃ t, exec .save badKit = .next t ∧ t.err = .outOfRange := save_badKit

theorem witness_CommandsKeepTheHostsState :
    ∃ t, exec (.set 3 10 255) kitB1 = .next t ∧ t.err = .ok := next_of_after (by decide +kernel)

/-- B1 in IN and an IN that differs in byte 165 only, for DETECT, LOAD and SAVE; and B1 with a bad marker and an IN that
differs in header byte 0, which neither DETECT nor a LOAD that fails reads. -/
theorem witness_CommandsReadOnlyTheirPartOfInput :
    (∃ t, exec .detect (input .format1 165) = .next t ∧ t.err = .ok) ∧
      (∃ t, exec .load (input .format1 165) = .next t ∧ t.err = .ok) ∧ (input .format1 165).srcErr = false ∧
      (∀ a, a < 165 → Memory.read (Memory.write (input .format1 165).inBuf 165 1) a = Memory.read (input .format1 165).inBuf a) ∧
      (∃ t, exec .detect (patched 113 0xE5) = .next t ∧ t.err = .markerMismatch) ∧
      (∃ t, exec .load (patched 113 0xE5) = .next t ∧ t.err = .markerMismatch) ∧ (patched 113 0xE5).srcErr = false ∧
      (∀ (v : Voice) (k : Nat), k < 4 →
        Memory.read (Memory.write (patched 113 0xE5).inBuf 0 1) (vbase Params.spec v .format1 + 4 + k)
          = Memory.read (patched 113 0xE5).inBuf (vbase Params.spec v .format1 + 4 + k)) ∧
      ¬ (∀ v, MarkerAt Params.spec (patched 113 0xE5).inBuf .format1 v) ∧
      ∃ t, exec .save kitB1 = .next t ∧ t.err = .ok :=
  ⟨next_of_after (by decide +kernel), next_of_after (by decide +kernel), rfl,
    fun _ h => read_write_ne (Nat.ne_of_lt h) _ _, next_of_after (by decide +kernel), next_of_after (by decide +kernel), rfl,
    fun _ _ _ => read_write_ne (by simp only [vbase]; omega) _ _,
    fun h => witness_LowestBadMarkerIsReported.2.2.1 (h 2), save_kitB1⟩

/-- Unheld bytes of a loaded FORMAT_1 kit: VS[3][30], VS[3][31], HS[57], HS[58]; and no kit at all. -/
theorem witness_UnheldStoreBytesAreNeverRead :
    kitB1.kitValid = true ∧
      (∀ (v : Voice) (o : Nat), o < vlen v kitB1.format →
        Memory.read (Memory.write kitB1.vs (vsAddr 3 30) 7) (vsAddr v o) = Memory.read kitB1.vs (vsAddr v o)) ∧
      (∀ k, k < hdrLen kitB1.cfg.p kitB1.format → Memory.read (Memory.write kitB1.hs 57 7) k = Memory.read kitB1.hs k) ∧
      (∃ t, exec .save kitB1 = .next t ∧ t.err = .ok) ∧
      (∃ t, exec (.set 3 10 255) kitB1 = .next t ∧ t.kitValid = true) ∧ State.reset.kitValid = false := by
  refine ⟨rfl, fun v o ho => read_write_ne (fun he => ?_) _ _, fun k hk => read_write_ne (Nat.ne_of_lt hk) _ _, save_kitB1,
    next_of_after (by decide +kernel), rfl⟩
  have hr := vlen_range v kitB1.format
  obtain ⟨rfl, rfl⟩ := vsAddr_injective (by omega) (by omega) he
  exact absurd ho (by decide)

/-- Between a LOAD and a SAVE the host rewrites IN, GETs, reads RESULT and issues two illegal words, one with
OP = 5. -/
def between : List Event := [.wr8 0x100 0xFF, .wr32 0 0x000002B4, .rd32 8, .wr32 0 0, .wr32 0 0x0000FC05]

theorem between_leaves (t : State) (he : t.events = between) (hc : t.cfg = Config.spec) :
    ∀ e ∈ t.events.take 5, LeavesKit t.cfg.p e := by
  rw [he, hc]
  simp only [between, List.take_succ_cons, List.take_nil, List.forall_mem_cons]
  exact ⟨trivial, fun _ => ⟨by decide, fun h => absurd h (by decide)⟩, trivial,
    fun _ => ⟨by decide, fun h => absurd h (by decide)⟩,
    fun _ => ⟨by decide, fun _ => witness_IllegalWordRaisesIllegalCommand.2⟩, by simp⟩

/-- A record of FORMAT_1 with good markers loads. -/
theorem load_format1 (s : State) (hs : s.srcErr = false) (hl : s.inLen.toNat = total s.cfg.p .format1)
    (hm : ∀ v, MarkerAt s.cfg.p s.inBuf .format1 v) : exec .load s = .next (State.loaded .format1 s) := by
  have hd := (detectInput_eq_ok s .format1).2 ⟨hs, hl, fun v => (markerAt_iff _ _ _ _).1 (hm v)⟩
  rcases execLoad_eq s with ⟨e, h, -⟩ | ⟨f, h, hx⟩ <;> rw [hd] at h <;> cases h
  exact hx

theorem witness_LoadThenSaveGivesTheRecordBack :
    ∃ t u, exec .load (waiting (input .format1 165) between) = .next t ∧ t.err = .ok ∧
      (waiting (input .format1 165) between).inLen.toNat = total Params.spec .format1 ∧
      TogglesInRange Params.spec (waiting (input .format1 165) between).inBuf .format1 ∧
      (∀ e ∈ t.events.take 5, LeavesKit t.cfg.p e) ∧ Host.Core.run Sys2Proof.core 5 t = .next u := by
  have hrun : after (Host.Core.run Sys2Proof.core 5 (State.loaded .format1 (waiting (input .format1 165) between)))
      (fun u => u.err) = some .illegalCommand := by decide +kernel
  obtain ⟨u, hu, -⟩ := next_of_after hrun
  exact ⟨_, u, load_format1 _ rfl rfl markers_b1, rfl, rfl, toggles_b1, between_leaves _ rfl rfl, hu⟩

/-- B1 with voice 2's `algo` 5 (program P3). -/
theorem markers_bad_toggle : ∀ v, MarkerAt Params.spec (patched 109 5).inBuf .format1 v := by
  unfold MarkerAt; decide +kernel

theorem witness_UnrepairedToggleBlocksSave :
    ∃ t u, exec .load (waiting (patched 109 5) between) = .next t ∧ t.err = .ok ∧
      (waiting (patched 109 5) between).inLen.toNat = total Params.spec .format1 ∧
      ¬ TogglesInRange Params.spec (waiting (patched 109 5) between).inBuf .format1 ∧
      (∀ e ∈ t.events.take 5, LeavesKit t.cfg.p e) ∧ Host.Core.run Sys2Proof.core 5 t = .next u := by
  have hrun : after (Host.Core.run Sys2Proof.core 5 (State.loaded .format1 (waiting (patched 109 5) between)))
      (fun u => u.err) = some .illegalCommand := by decide +kernel
  obtain ⟨u, hu, -⟩ := next_of_after hrun
  refine ⟨_, u, load_format1 _ rfl rfl markers_bad_toggle, rfl, rfl, fun h => ?_, between_leaves _ rfl rfl, hu⟩
  exact absurd (h 2 .algo (.inl rfl)) (by decide +kernel)

/-- SETs that repair that toggle, set it twice and change another control. -/
def repairs : List (Voice × Control × Half) := [(2, .algo, 2), (2, .algo, 1), (3, .level, 255)]

theorem witness_SaveAfterSetsReplacesExactlyThoseBytes :
    ∃ t, exec .load (patched 109 5) = .next t ∧ t.err = .ok ∧ (patched 109 5).inLen.toNat = total Params.spec .format1 ∧
      (∀ x ∈ repairs, InRange x.2.1 x.2.2.toInt) ∧
      TogglesInRange Params.spec (replaceControls Params.spec .format1 (patched 109 5).inBuf repairs) .format1 := by
  refine ⟨_, load_format1 _ rfl rfl markers_bad_toggle, rfl, rfl, by unfold InRange; decide, fun v c hc => ?_⟩
  rcases hc with rfl | rfl | rfl <;> revert v <;> decide +kernel

/-- After that LOAD the host SETs among other accesses: voice 2's `algo` out of range and then in range, voice 3's `level`. -/
def mixed : List Action :=
  [.other (.rd32 8), .set 2 .algo 3, .set 2 .algo 1, .other (.wr8 0x100 0xFF), .set 3 .level 255, .other (.wr32 0 0x0000FC05)]

theorem mixed_leaves (e : Event) (h : Action.other e ∈ mixed) : LeavesKit Params.spec e := by
  simp only [mixed, List.mem_cons, List.not_mem_nil, or_false, reduceCtorEq, false_or, Action.other.injEq] at h
  rcases h with rfl | rfl | rfl
  · trivial
  · trivial
  · exact fun _ => ⟨by decide, fun _ => witness_IllegalWordRaisesIllegalCommand.2⟩

theorem mixed_completed : completedSets mixed = [(2, .algo, 1), (3, .level, 255)] := by decide

theorem witness_SaveAfterInterleavedSetsReplacesExactlyThoseBytes :
    ∃ s t u, exec .load s = .next t ∧ t.err = .ok ∧ s.inLen.toNat = total s.cfg.p .format1 ∧
      (∀ e, Action.other e ∈ mixed → LeavesKit t.cfg.p e) ∧ t.events = mixed.map (Action.event t.cfg.p) ++ [] ∧
      Host.Core.run Sys2Proof.core mixed.length t = .next u ∧
      TogglesInRange s.cfg.p (replaceControls s.cfg.p .format1 s.inBuf (completedSets mixed)) .format1 := by
  have hrun : after (Host.Core.run Sys2Proof.core 6
      (State.loaded .format1 (waiting (patched 109 5) (mixed.map (Action.event Params.spec))))) (fun u => u.err) =
      some .illegalCommand := by decide +kernel
  obtain ⟨u, hu, -⟩ := next_of_after hrun
  refine ⟨waiting (patched 109 5) (mixed.map (Action.event Params.spec)), _, u,
    load_format1 _ rfl rfl markers_bad_toggle, rfl, rfl, mixed_leaves, (List.append_nil _).symm, hu, fun v c hc => ?_⟩
  rw [mixed_completed]
  rcases hc with rfl | rfl | rfl <;> revert v <;> decide +kernel

/-- The kit of B1 with B1 in OUT and a SAVE's error recorded: the state the invariants' witnesses share. -/
def busy : State :=
  waiting { kitB1 with
    outBuf := Memory.ofBytes (record .format1), outLen := 165
    err := .outOfRange, errVoice := 1, errCtrl := 3, errValue := 256 } [.wr32 0 0x000002B4]

theorem busy_steps : ∃ t, step busy = .next t ∧ t.result = 0xAE := next_of_after (by decide +kernel)

theorem witness_StepKeepsStoresCanonical : StoresCanonical busy ∧ ∃ t, step busy = .next t ∧ t.result = 0xAE :=
  ⟨by unfold StoresCanonical; decide +kernel, busy_steps⟩

theorem witness_StepKeepsTheHeldMarkers :
    MarkersHeld busy ∧ busy.kitValid = true ∧ ∃ t, step busy = .next t ∧ t.result = 0xAE :=
  ⟨by unfold MarkersHeld; decide +kernel, rfl, busy_steps⟩

theorem witness_StepKeepsTailsZero :
    TailsZero busy ∧ busy.kitValid = true ∧ ∃ t, step busy = .next t ∧ t.result = 0xAE := by
  have hv : ∀ v : Voice, ∀ o < 32, vlen v busy.format ≤ o → Memory.read busy.vs (vsAddr v o) = 0 := by decide +kernel
  have hh : ∀ i < 59, hdrLen busy.cfg.p busy.format ≤ i → Memory.read busy.hs i = 0 := by decide +kernel
  exact ⟨fun _ => ⟨fun v o h1 h2 => hv v o h2 h1, fun i h1 h2 => hh i h2 h1⟩, rfl, busy_steps⟩

theorem witness_StepKeepsDiagnosticsMatched : DiagnosticsMatch busy ∧ ∃ t, step busy = .next t ∧ t.result = 0xAE := by
  refine ⟨?_, busy_steps⟩
  have he : busy.err = .outOfRange := rfl
  have hf : busy.errFound = 0 := rfl
  simp only [DiagnosticsMatch, he, hf]
  refine ⟨by simp, by simp, by simp, by simp, by simp, by simp, fun _ => ⟨.tune, rfl, ?_⟩⟩
  unfold InRange; decide +kernel

theorem witness_StepKeepsTheOutputARecord :
    OutputIsRecord busy ∧ busy.outLen ≠ 0 ∧ ∃ t, step busy = .next t ∧ t.result = 0xAE :=
  ⟨.inr ⟨.format1, rfl, markers_b1, toggles_b1⟩, by decide +kernel, busy_steps⟩

/-- The last byte of a record, in the last window of each format. -/
theorem witness_RegionsTileTheRecord :
    29 < vlen 3 .format1 ∧ vbase Params.spec 3 .format1 + 29 = 164 ∧ 31 < vlen 3 .format2 ∧
      vbase Params.spec 3 .format2 + 31 = 168 := by decide

end Sys2Proof.Tests
end

/-! PROOFS. The family 10_state.md: which events and commands touch the kit (R23 to R26), and the host's register
writes and the reserved bits (R38). -/

namespace Sys2Proof.Proofs

open Sys2Proof.Machine Sys2Proof.Safety Sys2Proof.Laws

/-! ### What can happen to the kit -/

/-- An outcome has one next state. -/
theorem next_unique {o : Host.Outcome State Fault Refusal} {s t : State} (hs : o = .next s) (ht : o = .next t) : t = s :=
  Host.Outcome.next.inj (ht.symm.trans hs)

theorem sameKit_refl (s : State) : SameKit s s := ⟨rfl, rfl, rfl, rfl, rfl⟩

/-- An error changes no part of the kit (60_exceptions.md R206). -/
theorem sameKit_raised (e : EngineError) (s : State) : SameKit s (State.raised e s) := ⟨rfl, rfl, rfl, rfl, rfl⟩

theorem sameKit_saved (s : State) : SameKit s (State.saved s) := ⟨rfl, rfl, rfl, rfl, rfl⟩

/-- DETECT and GET complete with RESULT alone written. -/
theorem sameKit_completed_result (r : Word) (s : State) : SameKit s (State.completed { s with result := r }) :=
  ⟨rfl, rfl, rfl, rfl, rfl⟩

/-- What a command can do to the kit: nothing, replace it (LOAD), or write one control of a held one (SET). -/
theorem exec_kit_cases {i : Instr} {s t : State} (h : exec i s = .next t) :
    SameKit s t ∨
    (∃ fmt, i = .load ∧ detectInput s = .ok fmt ∧ t = State.loaded fmt s) ∨
    (∃ v c ctl imm, i = .set v c imm ∧ controlOfCode c = some ctl ∧ s.kitValid = true ∧
      rangeOK ctl (immValue imm) = true ∧ t = State.controlSet v ctl imm s) := by
  cases i with
  | detect =>
    left
    rcases execDetect_eq s with ⟨e, -, he⟩ | ⟨fmt, -, he⟩ <;> rw [next_unique he h]
    · exact sameKit_raised e s
    · exact sameKit_completed_result _ s
  | load =>
    rcases execLoad_eq s with ⟨e, -, he⟩ | ⟨fmt, hd, he⟩
    · exact .inl (next_unique he h ▸ sameKit_raised e s)
    · exact .inr (.inl ⟨fmt, rfl, hd, next_unique he h⟩)
  | save =>
    left
    rcases execSave_eq s with ⟨-, he⟩ | ⟨e, -, -, he⟩ | ⟨-, -, he⟩ <;> rw [next_unique he h]
    · exact sameKit_raised _ s
    · exact sameKit_raised e s
    · exact sameKit_saved s
  | get v c =>
    left
    rcases execGet_eq v c s with ⟨-, he⟩ | ⟨ctl, -, -, he⟩ | ⟨ctl, -, -, he⟩ <;> rw [next_unique he h]
    · exact sameKit_raised _ s
    · exact sameKit_raised _ s
    · exact sameKit_completed_result _ s
  | set v c imm =>
    rcases execSet_eq v c imm s with ⟨-, he⟩ | ⟨ctl, -, -, he⟩ | ⟨ctl, -, -, -, he⟩ | ⟨ctl, hc, hk, hr, he⟩
    · exact .inl (next_unique he h ▸ sameKit_raised _ s)
    · exact .inl (next_unique he h ▸ sameKit_raised _ s)
    · exact .inl (next_unique he h ▸ sameKit_raised _ s)
    · exact .inr (.inr ⟨v, c, ctl, imm, rfl, hc, hk, hr, next_unique he h⟩)

/-- What a step can do to the kit: nothing, what the command written to CMD does to it, or what reset does. -/
theorem step_kit_cases {s t : State} (h : step s = .next t) :
    SameKit s t ∨
    (∃ w i rest, s.events = commandWrite s.cfg.p w :: rest ∧ decode w = .ok i ∧
      exec i { s with events := rest, cmd := w } = .next t) ∨
    (∃ d rest, s.events = .reset d :: rest ∧ t = State.afterReset d { s with events := rest }) := by
  cases hev : s.events with
  | nil =>
    rw [step_nil hev] at h
    cases h
    exact .inl (sameKit_refl s)
  | cons e rest =>
    rw [step_cons hev] at h
    rcases handleEvent_next h with ⟨w, i, rfl, hd, hx⟩ | ⟨w, err, -, -, rfl⟩ | ⟨w, -, rfl⟩ | ⟨w, -, rfl⟩ |
      ⟨r, w, -, -, -, -, rfl⟩ | ⟨a, b, -, -, rfl⟩ | ⟨a, b, -, -, rfl⟩ | ⟨r, -, -, -, rfl⟩ | ⟨d, rfl, rfl⟩
    · exact .inr (.inl ⟨w, i, rest, rfl, hd, hx⟩)
    iterate 7 · exact .inl ⟨rfl, rfl, rfl, rfl, rfl⟩
    · exact .inr (.inr ⟨d, rest, rfl, rfl⟩)

/-! ### The held markers (10_state.md R26) -/

/-- The condition rests on the kit alone. -/
theorem markersHeld_of_sameKit {s t : State} (h : SameKit s t) (hs : MarkersHeld s) : MarkersHeld t := by
  obtain ⟨-, hvalid, -, -, hvs⟩ := h
  rw [MarkersHeld, hvalid, hvs]
  exact hs

/-- A window that LOAD accepts carries the marker into the voice store (42_kit_codec.md R171). -/
theorem markersHeld_loaded {s : State} {fmt : Format} (h : detectInput s = .ok fmt) : MarkersHeld (State.loaded fmt s) := by
  intro _ v
  obtain ⟨-, -, hmarkers⟩ := (detectInput_eq_ok s fmt).1 h
  have hlen := vlen_range v fmt
  have hread : ∀ o < 26, Memory.read (State.loaded fmt s).vs (vsAddr v o)
      = Memory.read s.inBuf (vbase s.cfg.p v fmt + o) := fun o ho => by
    rw [loaded_vs fmt s v o (by omega), if_pos (by omega)]
  simp only [hread, Nat.reduceLT]
  exact (markerAt_iff s.cfg.p s.inBuf fmt v).2 (hmarkers v)

/-- No SET reaches a marker byte: no legal CTRL_OFF lies in 4..7 (00_scope.md R9). -/
theorem controlSet_vs_marker_byte (s : State) (v u : Voice) (ctl : Control) (imm : Half) {o : Nat} (ho : 4 ≤ o ∧ o ≤ 7) :
    Memory.read (State.controlSet v ctl imm s).vs (vsAddr u o) = Memory.read s.vs (vsAddr u o) := by
  have hoff := ctrlOff_range s.cfg ctl
  refine read_write_ne (fun heq => ?_) _ _
  obtain ⟨-, rfl⟩ := vsAddr_injective (by omega) (by omega) heq
  omega

theorem markersHeld_controlSet {s : State} (hs : MarkersHeld s) (v : Voice) (ctl : Control) (imm : Half) :
    MarkersHeld (State.controlSet v ctl imm s) := by
  intro hvalid u
  simp only [controlSet_vs_marker_byte s v u ctl imm, Nat.reduceLeDiff, and_self]
  exact hs hvalid u

/-- Every command keeps the markers of a held kit. -/
theorem exec_keeps_markersHeld {i : Instr} {s t : State} (hs : MarkersHeld s) (h : exec i s = .next t) : MarkersHeld t := by
  rcases exec_kit_cases h with hsame | ⟨fmt, -, hd, rfl⟩ | ⟨v, -, ctl, imm, -, -, -, -, rfl⟩
  · exact markersHeld_of_sameKit hsame hs
  · exact markersHeld_loaded hd
  · exact markersHeld_controlSet hs v ctl imm

/-- Settles O52: of the events, only a LOAD, a SET and a reset touch the kit. LOAD brings in checked windows, SET writes
beside the markers, and reset leaves no kit held. -/
theorem stepKeepsTheHeldMarkers : Obligations.StepKeepsTheHeldMarkers := by
  intro s t hs h
  rcases step_kit_cases h with hsame | ⟨w, i, rest, -, -, hx⟩ | ⟨d, rest, -, rfl⟩
  · exact markersHeld_of_sameKit hsame hs
  · exact exec_keeps_markersHeld (s := { s with events := rest, cmd := w }) hs hx
  · exact fun hvalid => absurd hvalid (by simp)

/-! ### Register writes and reserved bits (10_state.md R38) -/

/-- A 32-bit write at a register's address is a write of that register (10_state.md R29). -/
theorem step_write_register {s : State} {w : Word} {rest : List Event} (r : Reg)
    (h : s.events = .wr32 (s.cfg.p.hostBase + regOffset r) w :: rest) :
    step s = regWrite w { s with events := rest } r := by
  rw [step_cons h]
  simp only [handleEvent, hostWrite32, regionOfAddr_eq_register.2 rfl]

/-- IN_LEN takes bits [15:0] of the word written (10_state.md R32). -/
theorem lowHalf_eq_ofNat (w : Word) : w.extractLsb' 0 16 = BitVec.ofNat 16 (w.toNat % 65536) :=
  BitVec.eq_of_toNat_eq (by simp)

/-- SRC_CTRL takes bit [0] of the word written (10_state.md R34). -/
theorem lowBit_eq_decide (w : Word) : w.getLsbD 0 = decide (w.toNat % 2 = 1) := by
  simp [BitVec.getLsbD, Nat.testBit_zero]

theorem errNumber_le (e : ErrCode) : (errNumber e).toNat ≤ 6 := by cases e <;> decide

/-- STATUS has no bit above 5 (10_state.md R30). -/
theorem statusWord_lt (s : State) : (statusWord s).toNat < 64 := by
  have := errNumber_le s.err
  rw [statusWord_toNat]
  split <;> split <;> omega

/-- SRC_CTRL has no bit above 0 (10_state.md R34). -/
theorem srcCtrlWord_lt (s : State) : (srcCtrlWord s).toNat < 2 := by
  rw [srcCtrlWord_toNat]
  split <;> omega

/-- A 16-bit field read as a word has no bit above 15 (10_state.md R32, R33, R37). -/
theorem halfWord_lt (x : Half) : (x.setWidth 32).toNat < 65536 := by
  have := x.isLt
  rw [BitVec.toNat_setWidth]
  omega

/-- ERR_INFO has no bit above 11, and none from 7 down to 2 (10_state.md R35). -/
theorem errInfoWord_reserved (s : State) : (errInfoWord s).toNat < 4096 ∧ (errInfoWord s).toNat % 256 < 4 := by
  have := s.errVoice.isLt
  have := s.errCtrl.isLt
  rw [errInfoWord_toNat]
  omega

/-- Settles O12: the six read-only offsets, then IN_LEN and SRC_CTRL, each by the write of its register; the reserved
bits by the registers' words as numbers. -/
theorem readOnlyRegistersAndReservedBitsIgnoreWrites : Obligations.ReadOnlyRegistersAndReservedBitsIgnoreWrites := by
  intro s w rest
  refine ⟨fun off hoff h => ?_, fun h => ?_, fun h => ?_, statusWord_lt s, halfWord_lt s.inLen, halfWord_lt s.outLen,
    srcCtrlWord_lt s, halfWord_lt s.errValue, errInfoWord_reserved s⟩
  · simp only [List.mem_cons, List.not_mem_nil, or_false] at hoff
    rcases hoff with rfl | rfl | rfl | rfl | rfl | rfl
    · exact step_write_register .status h
    · exact step_write_register .result h
    · exact step_write_register .outLen h
    · exact step_write_register .errInfo h
    · exact step_write_register .errFound h
    · exact step_write_register .errValue h
  · rw [← lowHalf_eq_ofNat]
    exact step_write_register .inLen h
  · rw [← lowBit_eq_decide]
    exact step_write_register .srcCtrl h

end Sys2Proof.Proofs

/-! PROOFS. The family 20_memory.md: the windows of the input and the output buffer (R71, R72), the bytes a SAVE writes
(R69) and the input bytes a command reads (R68). -/

namespace Sys2Proof.Proofs

open Sys2Proof.Machine Sys2Proof.Safety Sys2Proof.Laws

/-! ### The buffer windows (20_memory.md R71, R72) -/

/-- A host write in the IN window writes that byte of IN and nothing else. -/
theorem step_write_in {s : State} {a : Nat} {b : Byte} {rest : List Event} (ha : a < s.cfg.p.inCap)
    (h : s.events = .wr8 (s.cfg.p.hostBase + 0x100 + a) b :: rest) :
    step s = .next { s with events := rest, inBuf := Memory.write s.inBuf a b } := by
  rw [step_cons h]
  simp only [handleEvent, hostWrite8, regionOfAddr_in ha (legal_inCap s.cfg).2.2]

/-- A host write in the OUT window does nothing. -/
theorem step_write_out {s : State} {a : Nat} {b : Byte} {rest : List Event} (ha : a < s.cfg.p.outCap)
    (h : s.events = .wr8 (s.cfg.p.hostBase + 0x200 + a) b :: rest) : step s = .next { s with events := rest } := by
  rw [step_cons h]
  simp only [handleEvent, hostWrite8, regionOfAddr_out ha (legal_outCap s.cfg).2.2]

/-- A host read in the IN window returns that byte of IN. -/
theorem step_read_in {s : State} {a : Nat} {rest : List Event} (ha : a < s.cfg.p.inCap)
    (h : s.events = .rd8 (s.cfg.p.hostBase + 0x100 + a) :: rest) :
    step s = .next { s with events := rest, reads := s.reads ++ [.byte (Memory.read s.inBuf a)] } := by
  rw [step_cons h]
  simp only [handleEvent, hostRead8, logRead, regionOfAddr_in ha (legal_inCap s.cfg).2.2]

/-- A host read in the OUT window returns that byte of OUT. -/
theorem step_read_out {s : State} {a : Nat} {rest : List Event} (ha : a < s.cfg.p.outCap)
    (h : s.events = .rd8 (s.cfg.p.hostBase + 0x200 + a) :: rest) :
    step s = .next { s with events := rest, reads := s.reads ++ [.byte (Memory.read s.outBuf a)] } := by
  rw [step_cons h]
  simp only [handleEvent, hostRead8, logRead, regionOfAddr_out ha (legal_outCap s.cfg).2.2]

/-- A step that takes a reset leaves the state after reset (70_reset_and_hazards.md R230). -/
theorem step_reset {s : State} {d : PowerUp} {rest : List Event} (h : s.events = .reset d :: rest) :
    step s = .next (State.afterReset d { s with events := rest }) := step_cons h

/-- A reset event whose bytes are all `b` up to index `a` leaves `b` there in a store of `size` bytes. -/
theorem read_ofBytes_take_replicate {a size : Nat} (ha : a < size) (b : Byte) :
    Memory.read (Memory.ofBytes ((List.replicate (a + 1) b).take size)) a = b := by
  rw [read_ofBytes, List.take_of_length_le (by rw [List.length_replicate]; omega)]
  simp [List.getD_eq_getElem?_getD]

/-- Settles O14: the write and the read by the IN window's place in the address map; the reset that leaves `b` at `a`
carries `b` at every index up to `a`. -/
theorem inputBufferIsHostMemory : Obligations.InputBufferIsHostMemory := by
  intro s rest a b ha
  refine ⟨fun h => ?_, fun h => ⟨_, step_read_in ha h, rfl⟩, ?_⟩
  · exact ⟨_, step_write_in ha h, rfl, read_write_same _ _ _, fun x hx => read_write_ne hx _ _⟩
  · exact ⟨⟨List.replicate (a + 1) b, [], [], []⟩, _, step_reset rfl, read_ofBytes_take_replicate ha b⟩

/-- Settles O15: the read and the ignored write by the OUT window's place in the address map; the reset as for IN. -/
theorem outputBufferIsReadOnlyToTheHost : Obligations.OutputBufferIsReadOnlyToTheHost := by
  intro s rest a b ha
  refine ⟨fun h => ⟨_, step_read_out ha h, rfl⟩, step_write_out ha, ?_⟩
  exact ⟨⟨[], List.replicate (a + 1) b, [], []⟩, _, step_reset rfl, read_ofBytes_take_replicate ha b⟩

/-! ### The bytes a SAVE writes (20_memory.md R69) -/

/-- SAVE completes when a kit is held and its controls are in range (42_kit_codec.md R175). -/
theorem exec_save_completes {s : State} (hkit : s.kitValid = true) (hcheck : saveCheck s = none) :
    exec .save s = .next (State.saved s) := by
  rcases execSave_eq s with ⟨hnone, -⟩ | ⟨e, -, hbad, -⟩ | ⟨-, -, h⟩
  · simp [hkit] at hnone
  · simp [hcheck] at hbad
  · exact h

/-- Below TOTAL, what a completed SAVE leaves in OUT does not depend on what OUT held. -/
theorem saved_outBuf_independent (s : State) (m : Memory) {a : Nat} (ha : a < total s.cfg.p s.format) :
    Memory.read (State.saved { s with outBuf := m }).outBuf a = Memory.read (State.saved s).outBuf a := by
  rw [saved_outBuf, saved_outBuf, if_pos ha, if_pos ha]
  rfl

/-- At and above TOTAL, a completed SAVE leaves OUT as it was. -/
theorem saved_outBuf_of_total_le (s : State) {a : Nat} (ha : total s.cfg.p s.format ≤ a) :
    Memory.read (State.saved s).outBuf a = Memory.read s.outBuf a := by
  rw [saved_outBuf, if_neg (Nat.not_lt.2 ha)]

/-- Settles O40: by the ways SAVE ends. Whether it completes does not depend on OUT, so with another OUT it completes
too. -/
theorem saveWritesExactlyItsRecordsBytes : Obligations.SaveWritesExactlyItsRecordsBytes := by
  intro s t u m ht hu
  rcases execSave_eq s with ⟨-, hs⟩ | ⟨e, -, -, hs⟩ | ⟨hkit, hcheck, hs⟩
  · obtain rfl := next_unique hs ht
    exact ⟨fun hok => absurd hok (errorCode_ne_ok .noKit), fun _ => rfl⟩
  · obtain rfl := next_unique hs ht
    exact ⟨fun hok => absurd hok (errorCode_ne_ok e), fun _ => rfl⟩
  · obtain rfl := next_unique hs ht
    obtain rfl := next_unique (exec_save_completes (s := { s with outBuf := m }) hkit hcheck) hu
    exact ⟨fun _ => ⟨fun a => saved_outBuf_independent s m, fun a => saved_outBuf_of_total_le s⟩,
      fun herr => absurd (completed_err _) herr⟩

/-! ### The input bytes a command reads (20_memory.md R68) -/

/-- An outcome with another IN in its next state. -/
def withInput (m : Memory) : Host.Outcome State Fault Refusal → Host.Outcome State Fault Refusal
  | .next t => .next { t with inBuf := m }
  | .fault r => .fault r
  | .refused r => .refused r

/-- A command that commutes with the exchange of IN answers the same under either. -/
theorem exec_next_of_withInput {i : Instr} {s t : State} {m : Memory}
    (hcomm : exec i { s with inBuf := m } = withInput m (exec i s)) (h : exec i s = .next t) :
    exec i { s with inBuf := m } = .next { t with inBuf := m } := by
  rw [hcomm, h, withInput]

/-- IN and `m` agree on the marker bytes that detection reads: those of the format with the length of the input, and
none with SRC_ERR = 1 (40_format_detector.md R121, R122). -/
def MarkerBytesAgree (s : State) (m : Memory) : Prop :=
  s.srcErr = false → ∀ fmt, s.inLen.toNat = total s.cfg.p fmt → ∀ (v : Voice) (k : Nat), k < 4 →
    Memory.read m (vbase s.cfg.p v fmt + 4 + k) = Memory.read s.inBuf (vbase s.cfg.p v fmt + 4 + k)

/-- The marker stage reads the found marker of each voice and nothing else of the buffer. -/
theorem markerStage_congr {p : Params} {buf m : Memory} {fmt : Format}
    (h : ∀ v, foundMarker p m v fmt = foundMarker p buf v fmt) : markerStage p m fmt = markerStage p buf fmt := by
  simp only [markerStage, h]

/-- Detection reads no other bytes of IN. -/
theorem detectInput_congr {s : State} {m : Memory} (h : MarkerBytesAgree s m) :
    detectInput { s with inBuf := m } = detectInput s := by
  unfold detectInput
  cases hsrc : s.srcErr with
  | true => rfl
  | false =>
    unfold detectFormat
    cases hlen : lengthStage s.cfg.p s.inLen with
    | none => rfl
    | some fmt =>
      have hfound : ∀ v, foundMarker s.cfg.p m v fmt = foundMarker s.cfg.p s.inBuf v fmt := fun v =>
        readBytes_congr (h hsrc fmt ((lengthStage_eq_some _ _ _).1 hlen) v)
      simp only [markerStage_congr hfound]

/-- DETECT reads the marker bytes that detection reads. -/
theorem exec_detect_withInput {s : State} {m : Memory} (h : MarkerBytesAgree s m) :
    exec .detect { s with inBuf := m } = withInput m (exec .detect s) := by
  simp only [exec, execDetect, detectInput_congr h]
  cases detectInput s <;> rfl

/-- The header image LOAD stages comes from `IN[0 .. TOTAL)`. -/
theorem headerImage_congr {p : Params} {buf m : Memory} {fmt : Format}
    (h : ∀ a, a < total p fmt → Memory.read m a = Memory.read buf a) : headerImage p m fmt = headerImage p buf fmt := by
  have hle : hdrLen p fmt ≤ total p fmt := by unfold total; omega
  exact List.map_congr_left fun i _ => ite_congr rfl (fun hi => h i (Nat.lt_of_lt_of_le hi hle)) fun _ => rfl

/-- The voice images LOAD stages come from `IN[0 .. TOTAL)`, where every window lies (20_memory.md R63). -/
theorem windowImage_congr {p : Params} {buf m : Memory} {fmt : Format}
    (h : ∀ a, a < total p fmt → Memory.read m a = Memory.read buf a) (v : Voice) :
    windowImage p m fmt v = windowImage p buf fmt v := by
  have hle := window_end_le_total p v fmt
  exact List.map_congr_left fun o _ => ite_congr rfl (fun ho => h _ (by omega)) fun _ => rfl

/-- The kit LOAD leaves depends on IN only through the record. -/
theorem loaded_withInput {s : State} {m : Memory} {fmt : Format}
    (h : ∀ a, a < total s.cfg.p fmt → Memory.read m a = Memory.read s.inBuf a) :
    State.loaded fmt { s with inBuf := m } = { State.loaded fmt s with inBuf := m } := by
  simp only [State.loaded, headerImage_congr h, funext (windowImage_congr h)]
  rfl

/-- LOAD ends in the error detection gives (42_kit_codec.md R171). -/
theorem exec_load_of_error {s : State} {e : EngineError} (h : detectInput s = .error e) :
    exec .load s = .next (State.raised e s) := by
  simp only [exec, execLoad, h]
  rfl

/-- LOAD completes when detection succeeds: the second marker test, of VoiceDecode, cannot fail then (41_voice_codec.md
R142). -/
theorem exec_load_of_ok {s : State} {fmt : Format} (h : detectInput s = .ok fmt) :
    exec .load s = .next (State.loaded fmt s) := by
  rcases execLoad_eq s with ⟨e, he, -⟩ | ⟨f, hf, hload⟩
  · rw [h] at he
    cases he
  · rw [h] at hf
    cases hf
    exact hload

/-- LOAD reads the marker bytes, and the whole record only when detection succeeds. -/
theorem exec_load_withInput {s : State} {m : Memory} (hmark : MarkerBytesAgree s m)
    (hrecord : ∀ fmt, detectInput s = .ok fmt → ∀ a, a < total s.cfg.p fmt → Memory.read m a = Memory.read s.inBuf a) :
    exec .load { s with inBuf := m } = withInput m (exec .load s) := by
  have hdet := detectInput_congr hmark
  cases hd : detectInput s with
  | error e =>
    rw [exec_load_of_error hd, exec_load_of_error (hdet.trans hd)]
    rfl
  | ok fmt =>
    rw [exec_load_of_ok hd, exec_load_of_ok (hdet.trans hd), loaded_withInput (hrecord fmt hd)]
    rfl

/-- SAVE reads nothing of IN. -/
theorem exec_save_withInput (s : State) (m : Memory) :
    exec .save { s with inBuf := m } = withInput m (exec .save s) := by
  have hcheck : saveCheck { s with inBuf := m } = saveCheck s := rfl
  simp only [exec, execSave, hcheck]
  by_cases hkit : s.kitValid = true
  · simp only [if_pos hkit]
    cases saveCheck s <;> rfl
  · simp only [if_neg hkit]
    rfl

/-- GET reads nothing of IN. -/
theorem exec_get_withInput (v : Voice) (c : BitVec 4) (s : State) (m : Memory) :
    exec (.get v c) { s with inBuf := m } = withInput m (exec (.get v c) s) := by
  simp only [exec, execGet]
  cases controlOfCode c with
  | none => rfl
  | some ctl =>
    by_cases hkit : s.kitValid = true
    · simp only [if_pos hkit]
      rfl
    · simp only [if_neg hkit]
      rfl

/-- SET reads nothing of IN. -/
theorem exec_set_withInput (v : Voice) (c : BitVec 4) (imm : Half) (s : State) (m : Memory) :
    exec (.set v c imm) { s with inBuf := m } = withInput m (exec (.set v c imm) s) := by
  simp only [exec, execSet]
  cases controlOfCode c with
  | none => rfl
  | some ctl =>
    by_cases hkit : s.kitValid = true
    · simp only [if_pos hkit]
      cases rangeOK ctl (immValue imm) <;> rfl
    · simp only [if_neg hkit]
      rfl

/-- Settles O46: exchanging IN commutes with each command, for DETECT and LOAD under the agreement each needs. LOAD's
agreement on `IN[0 .. TOTAL)` is owed only when detection succeeds, which is when all four markers stand. -/
theorem commandsReadOnlyTheirPartOfInput : Obligations.CommandsReadOnlyTheirPartOfInput := by
  intro s t m
  refine ⟨total_le_inCap s.cfg, fun h hmark => ?_, fun h hinput => ?_, fun i hdetect hload h => ?_⟩
  · exact exec_next_of_withInput (exec_detect_withInput hmark) h
  · refine exec_next_of_withInput (exec_load_withInput (fun hsrc fmt hlen => (hinput hsrc fmt hlen).1) fun fmt hd => ?_) h
    obtain ⟨hsrc, hlen, hgood⟩ := (detectInput_eq_ok s fmt).1 hd
    exact (hinput hsrc fmt hlen).2 fun v => (markerAt_iff s.cfg.p s.inBuf fmt v).2 (hgood v)
  · refine exec_next_of_withInput ?_ h
    cases i with
    | detect => exact absurd rfl hdetect
    | load => exact absurd rfl hload
    | save => exact exec_save_withInput s m
    | get v c => exact exec_get_withInput v c s m
    | set v c imm => exact exec_set_withInput v c imm s m

end Sys2Proof.Proofs

/-! PROOFS. The family 30_encoding.md: the decoder against the grounds of illegality (R95, R96), the encoder as its
inverse (R92, R97), and the CMD write of an illegal word (R95, R201). -/

namespace Sys2Proof.Proofs

open Sys2Proof.Machine Sys2Proof.Safety Sys2Proof.Laws

/-! ### The fields of CMD32 as the claims number them (30_encoding.md R91) -/

theorem bits_eq_fieldOP (w : Word) : bits w 0 4 = (fieldOP w).toNat := by simp [bits, fieldOP_toNat]
theorem bits_eq_fieldV (w : Word) : bits w 4 2 = (fieldV w).toNat := (fieldV_toNat w).symm
theorem bits_eq_fieldC (w : Word) : bits w 6 4 = (fieldC w).toNat := (fieldC_toNat w).symm
theorem bits_eq_fieldRSV (w : Word) : bits w 10 6 = (fieldRSV w).toNat := (fieldRSV_toNat w).symm
theorem bits_eq_fieldIMM (w : Word) : bits w 16 16 = (fieldIMM w).toNat := (fieldIMM_toNat w).symm

/-- The grounds of R95 on the decoder's fields. -/
theorem illegalWord_iff_fields (w : Word) :
    IllegalWord w ↔
      ((fieldOP w).toNat = 0 ∨ 6 ≤ (fieldOP w).toNat) ∨
      fieldRSV w ≠ 0 ∨
      (((fieldOP w).toNat = 1 ∨ (fieldOP w).toNat = 2 ∨ (fieldOP w).toNat = 3) ∧
        ¬(fieldV w = 0 ∧ fieldC w = 0 ∧ fieldIMM w = 0)) ∨
      ((fieldOP w).toNat = 4 ∧ fieldIMM w ≠ 0) ∨
      (((fieldOP w).toNat = 4 ∨ (fieldOP w).toNat = 5) ∧ 11 ≤ (fieldC w).toNat) := by
  simp only [IllegalWord, bits_eq_fieldOP, bits_eq_fieldV, bits_eq_fieldC, bits_eq_fieldRSV, bits_eq_fieldIMM,
    BitVec.toNat_eq, BitVec.ofNat_eq_ofNat, BitVec.toNat_ofNat, Nat.zero_mod, ne_eq, not_and_or]

/-! ### What each decoder accepts (30_encoding.md R92, R95) -/

theorem decodeNoOperand_eq_ok_iff {w : Word} {i j : Instr} :
    decodeNoOperand w i = .ok j ↔ (fieldV w = 0 ∧ fieldC w = 0 ∧ fieldIMM w = 0) ∧ i = j := by
  unfold decodeNoOperand
  split <;> simp_all

theorem decodeGet_eq_ok_iff {w : Word} {i : Instr} :
    decodeGet w = .ok i ↔ fieldIMM w = 0 ∧ (fieldC w).toNat ≤ 10 ∧ .get (fieldV w) (fieldC w) = i := by
  unfold decodeGet
  split
  · simp_all
  · split <;> simp_all

theorem decodeSet_eq_ok_iff {w : Word} {i : Instr} :
    decodeSet w = .ok i ↔ (fieldC w).toNat ≤ 10 ∧ .set (fieldV w) (fieldC w) (fieldIMM w) = i := by
  unfold decodeSet
  split <;> simp [*]

/-! ### The decoder refuses exactly the illegal words (30_encoding.md R95, R97) -/

/-- The decoder gives an error or a command, never both. -/
theorem exists_error_iff_not_exists_ok {ε α : Type} (x : Except ε α) : (∃ e, x = .error e) ↔ ¬∃ a, x = .ok a := by
  cases x <;> simp

theorem exists_decode_error_iff (w : Word) : (∃ e, decode w = .error e) ↔ IllegalWord w := by
  rw [illegalWord_iff_fields, exists_error_iff_not_exists_ok]
  unfold decode
  split
  case isTrue hrsv => exact iff_of_true (by simp) (.inr (.inl hrsv))
  case isFalse hrsv =>
    rw [not_not] at hrsv
    split
    case h_1 hop | h_2 hop | h_3 hop => simp [decodeNoOperand_eq_ok_iff, hrsv, hop]
    case h_4 hop => simp [decodeGet_eq_ok_iff, hrsv, hop, imp_iff_not_or, Nat.lt_iff_add_one_le]
    case h_5 hop => simp [decodeSet_eq_ok_iff, hrsv, hop, Nat.lt_iff_add_one_le]
    case h_6 h1 h2 h3 h4 h5 =>
      simp only [imp_false] at h1 h2 h3 h4 h5
      exact iff_of_true (by simp) (.inl (by omega))

/-! ### The encoder is the decoder's inverse (30_encoding.md R92, R97) -/

/-- A well-formed command's word decodes to it. -/
theorem decode_encode_of_wellFormed {i : Instr} (h : i.WellFormed) : decode (encode i) = .ok i := by
  cases i with
  | detect | load | save => rfl
  | get v c => simp [encode, decode, decodeGet_eq_ok_iff, of_decide_eq_true h]
  | set v c imm => simp [encode, decode, decodeSet_eq_ok_iff, of_decide_eq_true h]

/-- Only its own word decodes to a command: the decoder checks every field that the command does not use. -/
theorem wellFormed_and_encode_of_decode {w : Word} {i : Instr} (h : decode w = .ok i) : i.WellFormed ∧ encode i = w := by
  unfold decode at h
  split at h
  case isTrue => cases h
  case isFalse hrsv =>
    have hw := assemble_fields w (not_not.1 hrsv)
    split at h
    case h_1 hop | h_2 hop | h_3 hop =>
      obtain ⟨⟨hv, hc, himm⟩, rfl⟩ := decodeNoOperand_eq_ok_iff.1 h
      rw [(BitVec.toNat_eq_nat.1 hop).2, hv, hc, himm] at hw
      exact ⟨rfl, hw⟩
    case h_4 hop =>
      obtain ⟨himm, hc, rfl⟩ := decodeGet_eq_ok_iff.1 h
      rw [(BitVec.toNat_eq_nat.1 hop).2, himm] at hw
      exact ⟨decide_eq_true hc, hw⟩
    case h_5 hop =>
      obtain ⟨hc, rfl⟩ := decodeSet_eq_ok_iff.1 h
      rw [(BitVec.toNat_eq_nat.1 hop).2] at hw
      exact ⟨decide_eq_true hc, hw⟩
    case h_6 => cases h

theorem decode_eq_ok_iff {w : Word} {i : Instr} : decode w = .ok i ↔ i.WellFormed ∧ encode i = w :=
  ⟨wellFormed_and_encode_of_decode, fun ⟨hwf, hw⟩ => hw ▸ decode_encode_of_wellFormed hwf⟩

/-- Settles O4: the decoder's refusals are the grounds of R95 field by field, and what it does not refuse it decodes to the
one command whose word it is. -/
theorem everyWordIsACommandOrIllegal : Obligations.EveryWordIsACommandOrIllegal := by
  intro w
  refine ⟨exists_decode_error_iff w, ?_⟩
  simp only [← exists_decode_error_iff, ← decode_eq_ok_iff]
  cases decode w <;> simp

/-! ### The CMD write of an illegal word (30_encoding.md R95, 60_exceptions.md R201) -/

/-- A CMD write stores the word and runs the command it encodes (10_state.md R29). -/
theorem step_commandWrite {s : State} {w : Word} {rest : List Event} (h : s.events = commandWrite s.cfg.p w :: rest) :
    step s = runCommand w { s with events := rest } :=
  step_write_register .cmd h

theorem runCommand_of_illegalWord {w : Word} (h : IllegalWord w) (s : State) :
    runCommand w s = raise .illegalCommand { s with cmd := w } := by
  obtain ⟨e, he⟩ := (exists_decode_error_iff w).2 h
  simp only [runCommand, he]

/-- Settles O5: the write runs the word, the decoder refuses it, and raising ILLEGAL_COMMAND records the error alone. -/
theorem illegalWordRaisesIllegalCommand : Obligations.IllegalWordRaisesIllegalCommand := by
  intro s w rest hev hw
  rw [step_commandWrite hev, runCommand_of_illegalWord hw]
  rfl

end Sys2Proof.Proofs

/-! PROOFS. The family 40_format_detector.md: what DETECT leaves unchanged (R126). -/

namespace Sys2Proof.Proofs

open Sys2Proof.Machine Sys2Proof.Safety Sys2Proof.Laws

/-- Settles O27: by the two ways DETECT ends. An error writes the diagnostics alone; completing clears them and writes
RESULT. -/
theorem detectWritesNoKitState : Obligations.DetectWritesNoKitState := by
  intro s t h
  rcases execDetect_eq s with ⟨e, -, herror⟩ | ⟨fmt, -, hok⟩
  · obtain rfl := next_unique herror h
    exact ⟨sameKit_raised e s, raised_inBuf e s, raised_inLen e s, raised_outBuf e s, raised_outLen e s⟩
  · obtain rfl := next_unique hok h
    exact ⟨sameKit_completed_result _ s, completed_inBuf _, completed_inLen _, completed_outBuf _, completed_outLen _⟩

end Sys2Proof.Proofs

/-! PROOFS. The family 41_voice_codec.md: the range table (R145), and the bytes of the kit that no control names (R153). -/

namespace Sys2Proof.Proofs

open Sys2Proof.Machine Sys2Proof.Safety Sys2Proof.Laws

/-! ### The range table (41_voice_codec.md R145) -/

/-- The upper bound through a control's kind is the one the spec lists control by control. -/
theorem maxValue_eq_ite (c : Control) : maxValue c = if c = .algo ∨ c = .mode ∨ c = .vcf then 2 else 255 := by
  cases c <;> rfl

theorem rangeOK_iff_le_maxValue (c : Control) (val : Int) : rangeOK c val = true ↔ 0 ≤ val ∧ val ≤ maxValue c := by
  simp [rangeOK]

/-- Settles O33: the check compares with `maxValue`, whose table is the spec's. -/
theorem rangeTableIsTheSpecs : Obligations.RangeTableIsTheSpecs := by
  intro c val
  rw [rangeOK_iff_le_maxValue, maxValue_eq_ite]

/-! ### The bytes no control names (41_voice_codec.md R153) -/

/-- A SET writes at its control's offset alone: an offset of a voice that is no control's keeps its byte. -/
theorem controlSet_vs_of_not_ctrlOff (s : State) (v u : Voice) (ctl : Control) (imm : Half) {o : Nat} (ho : o < 32)
    (hno : ∀ c, o ≠ ctrlOff s.cfg.p c) :
    Memory.read (State.controlSet v ctl imm s).vs (vsAddr u o) = Memory.read s.vs (vsAddr u o) := by
  have hoff := ctrlOff_lt s.cfg ctl
  refine read_write_ne (fun heq => ?_) _ _
  obtain ⟨-, hctl⟩ := vsAddr_injective ho (by omega) heq
  exact hno ctl hctl

/-- Settles O36: of the ways a command can touch the kit, the statement rules out LOAD, and a SET writes no header byte and
only at a control's offset. -/
theorem onlyLoadChangesBytesThatAreNoControl : Obligations.OnlyLoadChangesBytesThatAreNoControl := by
  intro i s t hload h
  rcases exec_kit_cases h with ⟨-, -, -, hhs, hvs⟩ | ⟨fmt, rfl, -, -⟩ | ⟨v, -, ctl, imm, -, -, -, -, rfl⟩
  · exact ⟨hhs, fun u o _ _ => by rw [hvs]⟩
  · exact absurd rfl hload
  · exact ⟨rfl, fun u o ho hno => controlSet_vs_of_not_ctrlOff s v u ctl imm ho hno⟩

end Sys2Proof.Proofs

/-! PROOFS. The family 42_kit_codec.md: what LOAD and SAVE leave of the kit (R173, R176), the markers of a saved record
(R178), and the round trip from a LOAD to a SAVE, without SETs (R179) and with them (R181). -/

namespace Sys2Proof.Proofs

open Sys2Proof.Machine Sys2Proof.Safety Sys2Proof.Laws

/-! ### Commands that leave the kit (42_kit_codec.md R173, R176) -/

/-- Settles O26: LOAD either ends in detection's error, which leaves the kit, or completes with STATUS.ERR = OK. -/
theorem failedLoadKeepsTheKit : Obligations.FailedLoadKeepsTheKit := by
  intro s t h herr
  rcases execLoad_eq s with ⟨e, -, herror⟩ | ⟨fmt, -, hok⟩
  · exact next_unique herror h ▸ sameKit_raised e s
  · obtain rfl := next_unique hok h
    exact absurd (completed_err _) herr

/-- SAVE ends in an error, or completes with the range check passed. -/
theorem exec_save_cases {s t : State} (h : exec .save s = .next t) :
    (∃ e, t = State.raised e s) ∨ (s.kitValid = true ∧ saveCheck s = none ∧ t = State.saved s) := by
  rcases execSave_eq s with ⟨-, he⟩ | ⟨e, -, -, he⟩ | ⟨hkit, hcheck, hok⟩
  · exact .inl ⟨.noKit, next_unique he h⟩
  · exact .inl ⟨e, next_unique he h⟩
  · exact .inr ⟨hkit, hcheck, next_unique hok h⟩

/-- Settles O39: an error writes the diagnostics alone; completing writes OUT, OUT_LEN and RESULT beside them. -/
theorem saveKeepsTheKit : Obligations.SaveKeepsTheKit := by
  intro s t h
  rcases exec_save_cases h with ⟨e, rfl⟩ | ⟨-, -, rfl⟩
  · exact ⟨sameKit_raised e s, fun _ => ⟨raised_outBuf e s, raised_outLen e s, raised_result e s⟩⟩
  · exact ⟨sameKit_saved s, fun herr => absurd (completed_err _) herr⟩

/-! ### The record a completed SAVE leaves in OUT (42_kit_codec.md R175, R178) -/

/-- The header of a saved record is the header store. -/
theorem saved_outBuf_header (s : State) {i : Nat} (hi : i < hdrLen s.cfg.p s.format) :
    Memory.read (State.saved s).outBuf i = Memory.read s.hs i := by
  have hle : hdrLen s.cfg.p s.format ≤ total s.cfg.p s.format := by unfold total; omega
  rw [saved_outBuf, if_pos (Nat.lt_of_lt_of_le hi hle), getD_encodeKit_header s i hi]

/-- The windows of a saved record are the voice images, with the marker from the constant. -/
theorem saved_outBuf_window (s : State) (v : Voice) {o : Nat} (ho : o < vlen v s.format) :
    Memory.read (State.saved s).outBuf (vbase s.cfg.p v s.format + o)
      = if 4 ≤ o ∧ o ≤ 7 then marker.getD (o - 4) 0 else Memory.read s.vs (vsAddr v o) := by
  have hend := window_end_le_total s.cfg.p v s.format
  rw [saved_outBuf, if_pos (by omega), getD_encodeKit_window s v o ho]

theorem markerAt_saved (s : State) (v : Voice) : MarkerAt s.cfg.p (State.saved s).outBuf s.format v := by
  have hlen := vlen_range v s.format
  rw [markerAt_iff, markerOK_foundMarker_iff]
  intro k hk
  rw [Nat.add_assoc, saved_outBuf_window s v (by omega), if_pos (by omega), Nat.add_sub_cancel_left]

/-- Settles O41: a SAVE that ends with OK wrote its record, whose marker bytes are the constant's and not the store's. -/
theorem savedRecordCarriesTheMarkers : Obligations.SavedRecordCarriesTheMarkers := by
  intro s t h hok v
  rcases exec_save_cases h with ⟨e, rfl⟩ | ⟨-, -, rfl⟩
  · exact absurd hok (errorCode_ne_ok e)
  · exact markerAt_saved s v

/-! ### A kit that holds the record of a buffer -/

/-- The machine of parameters `cfg` holds, as its kit, the record of format `fmt` that stands in `buf` with its markers. -/
def HoldsRecord (cfg : Config) (fmt : Format) (buf : Memory) (s : State) : Prop :=
  s.cfg = cfg ∧ s.kitValid = true ∧ s.format = fmt ∧
  (∀ i, i < hdrLen cfg.p fmt → Memory.read s.hs i = Memory.read buf i) ∧
  (∀ (v : Voice) (o : Nat), o < vlen v fmt →
    Memory.read s.vs (vsAddr v o) = Memory.read buf (vbase cfg.p v fmt + o)) ∧
  ∀ v, MarkerAt cfg.p buf fmt v

section
variable {cfg : Config} {fmt : Format} {buf : Memory} {s t : State}

theorem HoldsRecord.cfg_eq (h : HoldsRecord cfg fmt buf s) : s.cfg = cfg := h.1

theorem HoldsRecord.valid (h : HoldsRecord cfg fmt buf s) : s.kitValid = true := h.2.1

/-- That a record is held rests on the kit alone. -/
theorem HoldsRecord.of_sameKit (h : HoldsRecord cfg fmt buf s) (hsame : SameKit s t) : HoldsRecord cfg fmt buf t := by
  obtain ⟨hcfg, hvalid, hformat, hhs, hvs⟩ := hsame
  obtain ⟨hcfg', hvalid', hformat', hheader, hwindow, hmarkers⟩ := h
  exact ⟨hcfg.trans hcfg', hvalid.trans hvalid', hformat.trans hformat', hhs ▸ hheader, hvs ▸ hwindow, hmarkers⟩

/-- LOAD makes the record in IN the kit (42_kit_codec.md R171). -/
theorem holdsRecord_loaded (h : detectInput s = .ok fmt) : HoldsRecord s.cfg fmt s.inBuf (State.loaded fmt s) := by
  obtain ⟨-, -, hmarkers⟩ := (detectInput_eq_ok s fmt).1 h
  refine ⟨rfl, rfl, rfl, fun i hi => ?_, fun v o ho => ?_, fun v => (markerAt_iff s.cfg.p s.inBuf fmt v).2 (hmarkers v)⟩
  · rw [loaded_hs, if_pos hi]
  · rw [loaded_vs fmt s v o (Nat.lt_of_lt_of_le ho (vlen_range v fmt).2), if_pos ho]

/-- A completed LOAD on an input with the length of `fmt` loads it in that format. -/
theorem holdsRecord_of_load (h : exec .load s = .next t) (hok : t.err = .ok) (hlen : s.inLen.toNat = total s.cfg.p fmt) :
    HoldsRecord s.cfg fmt s.inBuf t := by
  rcases execLoad_eq s with ⟨e, -, herror⟩ | ⟨f, hd, hload⟩
  · obtain rfl := next_unique herror h
    exact absurd hok (errorCode_ne_ok e)
  · obtain rfl := next_unique hload h
    obtain ⟨-, hf, -⟩ := (detectInput_eq_ok s f).1 hd
    obtain rfl := total_injective s.cfg (hf.symm.trans hlen)
    exact holdsRecord_loaded hd

/-! ### SAVE gives the held record back (42_kit_codec.md R175, R177) -/

/-- A control of the kit is its byte in the record. -/
theorem HoldsRecord.controlByte_eq (h : HoldsRecord cfg fmt buf s) (v : Voice) (c : Control) :
    controlByte s v c = Memory.read buf (vbase cfg.p v fmt + ctrlOff cfg.p c) := by
  obtain ⟨rfl, -, -, -, hwindow, -⟩ := h
  have hoff := ctrlOff_lt s.cfg c
  have hlen := vlen_range v fmt
  exact hwindow v _ (by omega)

/-- The range check passes on a record whose toggles are in range: no byte is out of a potentiometer's range. -/
theorem HoldsRecord.saveCheck_eq_none (h : HoldsRecord cfg fmt buf s) (htog : TogglesInRange cfg.p buf fmt) :
    saveCheck s = none := by
  rw [Laws.saveCheck_eq_none]
  intro v c
  have hbyte := (controlByte s v c).isLt
  rw [rangeTableIsTheSpecs c]
  refine ⟨by omega, ?_⟩
  split
  case isTrue htoggle =>
    have := htog v c htoggle
    rw [h.controlByte_eq]
    omega
  case isFalse => omega

/-- Every byte of a record lies in its header or in a voice window (20_memory.md R61 to R63). -/
theorem record_byte_cases {p : Params} {a : Nat} (ha : a < total p fmt) :
    a < hdrLen p fmt ∨ ∃ (v : Voice) (o : Nat), o < vlen v fmt ∧ a = vbase p v fmt + o := by
  unfold total at ha
  rcases Nat.lt_or_ge a (hdrLen p fmt) with hhdr | hhdr
  · exact .inl hhdr
  right
  rcases Nat.lt_or_ge a (hdrLen p fmt + 78) with hfront | hlast
  · have hv : (BitVec.ofNat 2 ((a - hdrLen p fmt) / 26)).toNat = (a - hdrLen p fmt) / 26 := by
      rw [BitVec.toNat_ofNat]; omega
    refine ⟨BitVec.ofNat 2 ((a - hdrLen p fmt) / 26), (a - hdrLen p fmt) % 26, ?_, ?_⟩
    · exact Nat.lt_of_lt_of_le (Nat.mod_lt _ (by omega)) (vlen_range _ fmt).1
    · rw [vbase, hv]; omega
  · refine ⟨3, a - (hdrLen p fmt + 78), by omega, ?_⟩
    rw [vbase, show (3 : Voice).toNat = 3 from rfl]
    omega

/-- The saved record is the held one, byte for byte; at the marker positions because the held one has its markers. -/
theorem HoldsRecord.saved_outBuf_eq (h : HoldsRecord cfg fmt buf s) {a : Nat} (ha : a < total cfg.p fmt) :
    Memory.read (State.saved s).outBuf a = Memory.read buf a := by
  obtain ⟨rfl, -, rfl, hheader, hwindow, hmarkers⟩ := h
  rcases record_byte_cases ha with hhdr | ⟨v, o, ho, rfl⟩
  · rw [saved_outBuf_header s hhdr, hheader a hhdr]
  · rw [saved_outBuf_window s v ho]
    split
    case isFalse => exact hwindow v o ho
    case isTrue hmark =>
      have hbyte := (markerOK_foundMarker_iff _ _ _ _).1 ((markerAt_iff _ _ _ _).1 (hmarkers v)) (o - 4) (by omega)
      rw [← hbyte, Nat.add_assoc, Nat.add_sub_cancel' hmark.1]

/-- SAVE completes on a held record whose toggles are in range, with that record in OUT. -/
theorem HoldsRecord.exec_save (h : HoldsRecord cfg fmt buf s) (htog : TogglesInRange cfg.p buf fmt) {len : Half}
    (hlen : len.toNat = total cfg.p fmt) :
    ∃ w, exec .save s = .next w ∧ w.err = .ok ∧ w.outLen = len ∧
      ∀ a, a < len.toNat → Memory.read w.outBuf a = Memory.read buf a := by
  have hcheck := h.saveCheck_eq_none htog
  have hrecord := fun a ha => h.saved_outBuf_eq (a := a) ha
  obtain ⟨rfl, hvalid, rfl, -⟩ := h
  rw [← hlen] at hrecord
  exact ⟨_, exec_save_completes hvalid hcheck, completed_err s, BitVec.eq_of_toNat_eq ((saved_outLen s).trans hlen.symm),
    hrecord⟩

/-! ### SETs on a held record (41_voice_codec.md R152, 42_kit_codec.md R181) -/

/-- The byte SET stores, as replaceControls writes it. -/
theorem immByte_eq_ofNat (imm : Half) : immByte imm = BitVec.ofNat 8 imm.toNat :=
  BitVec.eq_of_toNat_eq (by simp [immByte])

/-- While a kit is held, a SET completes if its value is in range and raises OUT_OF_RANGE if not. -/
theorem exec_set_cases (hkit : s.kitValid = true) (v : Voice) (c : Control) (imm : Half) :
    (InRange c imm.toInt ∧ exec (.set v (controlCode c) imm) s = .next (State.controlSet v c imm s)) ∨
    (¬ InRange c imm.toInt ∧
      exec (.set v (controlCode c) imm) s = .next (State.raised (.outOfRange v (controlCode c) imm) s)) := by
  rcases execSet_eq v (controlCode c) imm s with ⟨hnone, -⟩ | ⟨d, -, hno, -⟩ | ⟨d, hd, -, hr, hx⟩ | ⟨d, hd, -, hr, hx⟩
  · simp at hnone
  · simp [hkit] at hno
  · obtain rfl : c = d := by simpa using hd
    refine .inr ⟨fun hin => ?_, hx⟩
    exact absurd hr (by simp [(rangeTableIsTheSpecs c (immValue imm)).2 hin])
  · obtain rfl : c = d := by simpa using hd
    exact .inl ⟨(rangeTableIsTheSpecs c (immValue imm)).1 hr, hx⟩

/-- A window byte is a control's byte in the record exactly when it is that control's byte in the voice store. -/
theorem window_byte_eq_control_iff (cfg : Config) (fmt : Format) {u v : Voice} {c : Control} {o : Nat}
    (ho : o < vlen u fmt) :
    vbase cfg.p u fmt + o = vbase cfg.p v fmt + ctrlOff cfg.p c ↔ vsAddr u o = vsAddr v (ctrlOff cfg.p c) := by
  have hoff := ctrlOff_lt cfg c
  have hu := vlen_range u fmt
  have hv := vlen_range v fmt
  constructor
  · intro h
    obtain ⟨rfl, rfl⟩ := window_disjoint ho (by omega) h
    rfl
  · intro h
    obtain ⟨rfl, rfl⟩ := vsAddr_injective (by omega) (by omega) h
    rfl

/-- Writing a control leaves every marker: no legal CTRL_OFF lies in 4..7 (00_scope.md R9). -/
theorem markerAt_write_control {u : Voice} (h : MarkerAt cfg.p buf fmt u) (v : Voice) (c : Control) (b : Byte) :
    MarkerAt cfg.p (Memory.write buf (vbase cfg.p v fmt + ctrlOff cfg.p c) b) fmt u := by
  have hoff := ctrlOff_range cfg c
  have hu := vlen_range u fmt
  have hv := vlen_range v fmt
  rw [markerAt_iff, markerOK_foundMarker_iff] at h ⊢
  intro k hk
  rw [read_write_ne, h k hk]
  intro heq
  rw [Nat.add_assoc] at heq
  obtain ⟨-, hmark⟩ := window_disjoint (by omega) (by omega) heq
  omega

/-- A completed SET changes the held record in that control's byte, which is neither a header nor a marker byte. -/
theorem HoldsRecord.controlSet (h : HoldsRecord cfg fmt buf s) (v : Voice) (c : Control) (imm : Half) :
    HoldsRecord cfg fmt (Memory.write buf (vbase cfg.p v fmt + ctrlOff cfg.p c) (BitVec.ofNat 8 imm.toNat))
      (State.controlSet v c imm s) := by
  obtain ⟨rfl, hvalid, rfl, hheader, hwindow, hmarkers⟩ := h
  have hoff := ctrlOff_range s.cfg c
  refine ⟨rfl, hvalid, rfl, fun i hi => ?_, fun u o ho => ?_, fun u => ?_⟩
  · rw [read_write_ne (by unfold vbase; omega)]
    exact hheader i hi
  · have hvs : (State.controlSet v c imm s).vs = Memory.write s.vs (vsAddr v (ctrlOff s.cfg.p c)) (immByte imm) := rfl
    rw [hvs, read_write, read_write, immByte_eq_ofNat, hwindow u o ho]
    simp only [window_byte_eq_control_iff s.cfg s.format ho]
  · exact markerAt_write_control (hmarkers u) v c _

/-- SETs in range, one after another, all complete. -/
theorem HoldsRecord.exists_runSets {sets : List (Voice × Control × Half)} (h : HoldsRecord cfg fmt buf s)
    (hr : ∀ x ∈ sets, InRange x.2.1 x.2.2.toInt) :
    ∃ u, runSets sets s = .next u ∧ HoldsRecord cfg fmt (replaceControls cfg.p fmt buf sets) u := by
  induction sets generalizing s buf with
  | nil => exact ⟨s, rfl, h⟩
  | cons x sets ih =>
    obtain ⟨v, c, imm⟩ := x
    obtain ⟨hx, hrest⟩ := List.forall_mem_cons.1 hr
    obtain ⟨u, hrun, hu⟩ := ih (h.controlSet v c imm) hrest
    rcases exec_set_cases h.valid v c imm with ⟨-, hset⟩ | ⟨hbad, -⟩
    · exact ⟨u, by rw [runSets, hset]; exact hrun, hu⟩
    · exact absurd hx hbad

end

/-- Settles O50: LOAD makes IN's record the kit, each SET edits it as replaceControls edits the buffer, and SAVE gives the
edited record back. -/
theorem saveAfterSetsReplacesExactlyThoseBytes : Obligations.SaveAfterSetsReplacesExactlyThoseBytes := by
  intro s t fmt sets hload hok hlen hr htog
  obtain ⟨u, hrun, hu⟩ := (holdsRecord_of_load hload hok hlen).exists_runSets hr
  obtain ⟨w, hsave⟩ := hu.exec_save htog hlen
  exact ⟨u, w, hrun, hsave⟩

/-! ### Runs in which the host leaves the kit (42_kit_codec.md R179) -/

theorem sameKit_trans {s t u : State} (h : SameKit s t) (h' : SameKit t u) : SameKit s u := by
  obtain ⟨h1, h2, h3, h4, h5⟩ := h
  obtain ⟨h1', h2', h3', h4', h5'⟩ := h'
  exact ⟨h1'.trans h1, h2'.trans h2, h3'.trans h3, h4'.trans h4, h5'.trans h5⟩

/-- No command takes or adds an event. -/
theorem exec_events {i : Instr} {s t : State} (h : exec i s = .next t) : t.events = s.events := by
  cases i with
  | detect => rcases execDetect_eq s with ⟨e, -, he⟩ | ⟨fmt, -, he⟩ <;> rw [next_unique he h] <;> rfl
  | load => rcases execLoad_eq s with ⟨e, -, he⟩ | ⟨fmt, -, he⟩ <;> rw [next_unique he h] <;> rfl
  | save => rcases exec_save_cases h with ⟨e, rfl⟩ | ⟨-, -, rfl⟩ <;> rfl
  | get v c =>
    rcases execGet_eq v c s with ⟨-, he⟩ | ⟨ctl, -, -, he⟩ | ⟨ctl, -, -, he⟩ <;> rw [next_unique he h] <;> rfl
  | set v c imm =>
    rcases execSet_eq v c imm s with ⟨-, he⟩ | ⟨ctl, -, -, he⟩ | ⟨ctl, -, -, -, he⟩ | ⟨ctl, -, -, -, he⟩ <;>
      rw [next_unique he h] <;> rfl

/-- A step takes the first waiting event, if there is one (70_reset_and_hazards.md R241). -/
theorem step_events {s t : State} (h : step s = .next t) : t.events = s.events.tail := by
  cases hev : s.events with
  | nil =>
    rw [step_nil hev] at h
    cases h
    exact hev
  | cons e rest =>
    rw [step_cons hev] at h
    rcases handleEvent_next h with ⟨w, i, -, -, hx⟩ | ⟨w, err, -, -, rfl⟩ | ⟨w, -, rfl⟩ | ⟨w, -, rfl⟩ |
      ⟨r, w, -, -, -, -, rfl⟩ | ⟨a, b, -, -, rfl⟩ | ⟨a, b, -, -, rfl⟩ | ⟨r, -, -, -, rfl⟩ | ⟨d, -, rfl⟩
    · exact exec_events hx
    all_goals rfl

/-- A step whose event neither resets nor issues a LOAD or a SET keeps the kit. -/
theorem step_sameKit_of_leavesKit {s t : State} (hleaves : ∀ e ∈ s.events.head?, LeavesKit s.cfg.p e)
    (h : step s = .next t) : SameKit s t := by
  rcases step_kit_cases h with hsame | ⟨w, i, rest, hev, hd, hx⟩ | ⟨d, rest, hev, -⟩
  · exact hsame
  · have hi := leavesKit_decode (hleaves (commandWrite s.cfg.p w) (by simp [hev])) hd
    rcases exec_kit_cases hx with hsame | ⟨fmt, rfl, -, -⟩ | ⟨v, c, ctl, imm, rfl, -, -, -, -⟩
    · exact hsame
    · simp at hi
    · simp at hi
  · exact (hleaves (.reset d) (by simp [hev])).elim

/-- A run of k + 1 steps that goes on is a step and a run of k. -/
theorem run_succ {k : Nat} {s u : State} (h : Host.Core.run Sys2Proof.core (k + 1) s = .next u) :
    ∃ t, step s = .next t ∧ Host.Core.run Sys2Proof.core k t = .next u := by
  simp only [Host.Core.run] at h
  split at h
  case h_1 t hstep => exact ⟨t, hstep, h⟩
  case h_2 => cases h
  case h_3 => cases h

/-- A run of such steps keeps the kit. -/
theorem run_sameKit_of_leavesKit {k : Nat} {s u : State} (hleaves : ∀ e ∈ s.events.take k, LeavesKit s.cfg.p e)
    (h : Host.Core.run Sys2Proof.core k s = .next u) : SameKit s u := by
  induction k generalizing s with
  | zero =>
    cases h
    exact sameKit_refl _
  | succ k ih =>
    obtain ⟨t, hstep, hrun⟩ := run_succ h
    have hsplit : s.events.take (k + 1) = s.events.head?.toList ++ t.events.take k := by
      rw [step_events hstep]
      cases s.events <;> simp
    rw [hsplit, List.forall_mem_append] at hleaves
    have hsame : SameKit s t := step_sameKit_of_leavesKit (fun e he => hleaves.1 e (by simpa using he)) hstep
    exact sameKit_trans hsame (ih (hsame.1 ▸ hleaves.2) hrun)

/-- Settles O48: LOAD makes IN's record the kit, the run keeps the kit, and SAVE gives the record back. -/
theorem loadThenSaveGivesTheRecordBack : Obligations.LoadThenSaveGivesTheRecordBack := by
  intro s t u fmt k hload hok hlen htog hleaves hrun
  have hheld := holdsRecord_of_load hload hok hlen
  exact (hheld.of_sameKit (run_sameKit_of_leavesKit hleaves hrun)).exec_save htog hlen

/-! ### Runs in which the host also issues SETs (42_kit_codec.md R181) -/

theorem completedSets_cons (a : Action) (acts : List Action) :
    completedSets (a :: acts) = completedSets [a] ++ completedSets acts := by
  cases a with
  | other e => rfl
  | set v c imm =>
    by_cases hr : InRange c imm.toInt
    · simp only [completedSets_set_of_inRange hr, completedSets_nil, List.singleton_append]
    · simp only [completedSets_set_of_not_inRange hr, completedSets_nil, List.nil_append]

theorem replaceControls_append (p : Params) (fmt : Format) (buf : Memory) (xs ys : List (Voice × Control × Half)) :
    replaceControls p fmt buf (xs ++ ys) = replaceControls p fmt (replaceControls p fmt buf xs) ys := by
  induction xs generalizing buf with
  | nil => rfl
  | cons x xs ih => exact ih _

section
variable {cfg : Config} {fmt : Format} {buf : Memory} {s t : State}

/-- A SET issued while a record is held edits the record if it is in range, and leaves it if it is not. -/
theorem HoldsRecord.exec_set (h : HoldsRecord cfg fmt buf s) {v : Voice} {c : Control} {imm : Half}
    (hx : exec (.set v (controlCode c) imm) s = .next t) :
    HoldsRecord cfg fmt (replaceControls cfg.p fmt buf (completedSets [.set v c imm])) t := by
  rcases exec_set_cases h.valid v c imm with ⟨hr, hset⟩ | ⟨hr, hset⟩
  · obtain rfl := next_unique hset hx
    rw [completedSets_set_of_inRange hr]
    exact h.controlSet v c imm
  · obtain rfl := next_unique hset hx
    rw [completedSets_set_of_not_inRange hr]
    exact h.of_sameKit (sameKit_raised _ s)

/-- One action of the host edits a held record by the SET it is, if that completes. -/
theorem HoldsRecord.step_action (h : HoldsRecord cfg fmt buf s) {a : Action} {rest : List Event}
    (hleaves : ∀ e, a = .other e → LeavesKit cfg.p e) (hev : s.events = a.event cfg.p :: rest) (hstep : step s = .next t) :
    HoldsRecord cfg fmt (replaceControls cfg.p fmt buf (completedSets [a])) t := by
  cases a with
  | other e =>
    refine h.of_sameKit (step_sameKit_of_leavesKit (fun e' he' => ?_) hstep)
    obtain rfl : e = e' := by simpa [hev] using he'
    exact h.cfg_eq ▸ hleaves e rfl
  | set v c imm =>
    rw [event_set, ← h.cfg_eq] at hev
    rw [step_commandWrite hev, runCommand, decode_encode_of_wellFormed (wellFormed_set v c imm)] at hstep
    exact (h.of_sameKit (t := { s with events := rest, cmd := encode (.set v (controlCode c) imm) })
      ⟨rfl, rfl, rfl, rfl, rfl⟩).exec_set hstep

/-- A run of the host's actions edits a held record by its completed SETs, in order. -/
theorem HoldsRecord.run_actions {acts : List Action} {rest : List Event} (h : HoldsRecord cfg fmt buf s)
    (hleaves : ∀ e, Action.other e ∈ acts → LeavesKit cfg.p e) (hev : s.events = acts.map (Action.event cfg.p) ++ rest)
    (hrun : Host.Core.run Sys2Proof.core acts.length s = .next t) :
    HoldsRecord cfg fmt (replaceControls cfg.p fmt buf (completedSets acts)) t := by
  induction acts generalizing s buf with
  | nil =>
    cases hrun
    exact h
  | cons a acts ih =>
    obtain ⟨m, hstep, hrest⟩ := run_succ hrun
    rw [completedSets_cons, replaceControls_append]
    have hheld := h.step_action (fun e he => hleaves e (by simp [he])) hev hstep
    refine ih hheld (fun e he => hleaves e (by simp [he])) ?_ hrest
    rw [step_events hstep, hev]
    rfl

end

/-- Settles O59: LOAD makes IN's record the kit, each action leaves it or edits it as replaceControls edits the buffer, and
SAVE gives the edited record back. -/
theorem saveAfterInterleavedSetsReplacesExactlyThoseBytes :
    Obligations.SaveAfterInterleavedSetsReplacesExactlyThoseBytes := by
  intro s t u fmt acts rest hload hok hlen hleaves hev hrun htog
  have hheld := holdsRecord_of_load hload hok hlen
  rw [hheld.cfg_eq] at hleaves hev
  exact (hheld.run_actions hleaves hev hrun).exec_save htog hlen

end Sys2Proof.Proofs

/-! PROOFS. The family 60_exceptions.md: each error with its diagnostic (R202 to R205, R208), the precision of errors (R206)
and the repeated command (R209). -/

namespace Sys2Proof.Proofs

open Sys2Proof.Machine Sys2Proof.Safety Sys2Proof.Laws

/-! ### The errors of detection (60_exceptions.md R202 to R204) -/

/-- DETECT ends in the error detection gives (40_format_detector.md R125). -/
theorem exec_detect_of_error {s : State} {e : EngineError} (h : detectInput s = .error e) :
    exec .detect s = .next (State.raised e s) := by
  rcases execDetect_eq s with ⟨e', he, hx⟩ | ⟨fmt, hok, -⟩
  · obtain rfl : e = e' := Except.error.inj (h.symm.trans he)
    exact hx
  · rw [h] at hok
    cases hok

/-- Both commands that detect raise the error of detection. -/
theorem exec_detect_load_of_error {s : State} {e : EngineError} (h : detectInput s = .error e) :
    exec .detect s = .next (State.raised e s) ∧ exec .load s = .next (State.raised e s) :=
  ⟨exec_detect_of_error h, exec_load_of_error h⟩

/-- Settles O21: with SRC_ERR = 0, a length that is no format's total is detection's MALFORMED_RECORD. -/
theorem lengthMismatchRaisesMalformedRecord : Obligations.LengthMismatchRaisesMalformedRecord := by
  intro s hsrc h1 h2
  have hno : ∀ fmt, s.inLen.toNat ≠ total s.cfg.p fmt := fun fmt => by cases fmt <;> assumption
  exact exec_detect_load_of_error ((detectInput_eq_error s _).2 (.inr (.inl ⟨hsrc, hno, rfl⟩)))

/-- The marker_validator refuses a window exactly when the marker does not stand in it. -/
theorem markerOK_eq_false_iff (p : Params) (buf : Memory) (fmt : Format) (v : Voice) :
    markerOK (foundMarker p buf v fmt) = false ↔ ¬ MarkerAt p buf fmt v := by
  rw [markerAt_iff, Bool.not_eq_true]

/-- Settles O22: the lowest voice without its marker is the one the marker stage reports, with the bytes it found. -/
theorem lowestBadMarkerIsReported : Obligations.LowestBadMarkerIsReported := by
  intro s fmt v hsrc hlen hbad hlow
  have hdetect : detectInput s = .error (.markerMismatch v (foundWord s.cfg.p s.inBuf fmt v)) :=
    (detectInput_eq_error s _).2 (.inr (.inr ⟨hsrc, fmt, v, hlen, (markerOK_eq_false_iff _ _ _ _).2 hbad,
      fun u hu => (markerAt_iff _ _ _ _).1 (hlow u hu), by rw [packFound_foundMarker]⟩))
  exact exec_detect_load_of_error hdetect

/-! ### The ends of SAVE, GET and SET (60_exceptions.md R205, R207, R208), each from the facts it rests on -/

section
variable {s : State} {v : Voice} {c : BitVec 4} {ctl : Control} {imm : Half}

theorem exec_save_of_noKit (hkit : s.kitValid = false) : exec .save s = .next (State.raised .noKit s) := by
  simp [exec, execSave, hkit]

theorem exec_save_of_saveCheck {e : EngineError} (hkit : s.kitValid = true) (hcheck : saveCheck s = some e) :
    exec .save s = .next (State.raised e s) := by
  simp [exec, execSave, hkit, hcheck]

theorem exec_get_of_unnamed (hc : controlOfCode c = none) : exec (.get v c) s = .next (State.raised .illegalCommand s) := by
  simp [exec, execGet, hc]

theorem exec_get_of_noKit (hc : controlOfCode c = some ctl) (hkit : s.kitValid = false) :
    exec (.get v c) s = .next (State.raised .noKit s) := by
  simp [exec, execGet, hc, hkit]

theorem exec_get_completes (hc : controlOfCode c = some ctl) (hkit : s.kitValid = true) :
    exec (.get v c) s = .next (State.completed { s with result := (controlByte s v ctl).setWidth 32 }) := by
  simp [exec, execGet, hc, hkit]

theorem exec_set_of_unnamed (hc : controlOfCode c = none) : exec (.set v c imm) s = .next (State.raised .illegalCommand s) := by
  simp [exec, execSet, hc]

theorem exec_set_of_noKit (hc : controlOfCode c = some ctl) (hkit : s.kitValid = false) :
    exec (.set v c imm) s = .next (State.raised .noKit s) := by
  simp [exec, execSet, hc, hkit]

theorem exec_set_of_outOfRange (hc : controlOfCode c = some ctl) (hkit : s.kitValid = true)
    (hr : rangeOK ctl (immValue imm) = false) : exec (.set v c imm) s = .next (State.raised (.outOfRange v c imm) s) := by
  simp [exec, execSet, hc, hkit, hr]

theorem exec_set_completes (hc : controlOfCode c = some ctl) (hkit : s.kitValid = true)
    (hr : rangeOK ctl (immValue imm) = true) : exec (.set v c imm) s = .next (State.controlSet v ctl imm s) := by
  simp [exec, execSet, hc, hkit, hr, State.controlSet]

end

/-- Settles O30: the three commands test KIT_VALID before anything a named control could fail. -/
theorem noKitIsRaisedWithoutAKit : Obligations.NoKitIsRaisedWithoutAKit := by
  intro s v c imm hkit
  have hc := controlOfCode_controlCode c
  exact ⟨exec_get_of_noKit hc hkit, exec_set_of_noKit hc hkit, exec_save_of_noKit hkit⟩

/-! ### Who reads SRC_ERR (60_exceptions.md R203) -/

/-- SAVE, GET and SET do not read SRC_ERR: each way they end rests on the kit and the operands alone. -/
theorem exec_withSrcErr {i : Instr} {s t : State} (hdetect : i ≠ .detect) (hload : i ≠ .load) (h : exec i s = .next t)
    (b : Bool) : exec i { s with srcErr := b } = .next { t with srcErr := b } := by
  cases i with
  | detect => exact absurd rfl hdetect
  | load => exact absurd rfl hload
  | save =>
    rcases execSave_eq s with ⟨hkit, he⟩ | ⟨e, hkit, hcheck, he⟩ | ⟨hkit, hcheck, he⟩ <;> obtain rfl := next_unique he h
    · exact exec_save_of_noKit hkit
    · exact exec_save_of_saveCheck hkit hcheck
    · exact exec_save_completes hkit hcheck
  | get v c =>
    rcases execGet_eq v c s with ⟨hc, he⟩ | ⟨ctl, hc, hkit, he⟩ | ⟨ctl, hc, hkit, he⟩ <;> obtain rfl := next_unique he h
    · exact exec_get_of_unnamed hc
    · exact exec_get_of_noKit hc hkit
    · exact exec_get_completes hc hkit
  | set v c imm =>
    rcases execSet_eq v c imm s with ⟨hc, he⟩ | ⟨ctl, hc, hkit, he⟩ | ⟨ctl, hc, hkit, hr, he⟩ | ⟨ctl, hc, hkit, hr, he⟩ <;>
      obtain rfl := next_unique he h
    · exact exec_set_of_unnamed hc
    · exact exec_set_of_noKit hc hkit
    · exact exec_set_of_outOfRange hc hkit hr
    · exact exec_set_completes hc hkit hr

/-- Settles O20: SRC_ERR = 1 is the first error of detection, and the other commands do not read SRC_ERR. -/
theorem sourceErrorIsRaisedFirst : Obligations.SourceErrorIsRaisedFirst := by
  intro s
  refine ⟨fun hsrc => ?_, fun i b t hdetect hload h => exec_withSrcErr hdetect hload h b⟩
  exact exec_detect_load_of_error ((detectInput_eq_error s _).2 (.inl ⟨hsrc, rfl⟩))

/-! ### Values out of range (60_exceptions.md R205) -/

/-- The range check refuses exactly the values outside the spec's range (41_voice_codec.md R145). -/
theorem rangeOK_eq_false_iff (c : Control) (val : Int) : rangeOK c val = false ↔ ¬ InRange c val := by
  rw [← rangeTableIsTheSpecs c val, Bool.not_eq_true]

/-- SAVE's check reports the first control out of range, with its byte zero-extended (41_voice_codec.md R147). -/
theorem saveCheck_of_firstBadControl {s : State} {v : Voice} {c : Control} (h : FirstBadControl s v c) :
    saveCheck s = some (.outOfRange v (controlCode c) (BitVec.ofNat 16 (controlByte s v c).toNat)) := by
  rw [BitVec.ofNat_toNat]
  obtain ⟨hbad, hvoices, hcontrols⟩ := h
  exact (saveCheck_eq_some s _).2 ⟨v, c, (rangeOK_eq_false_iff _ _).2 hbad,
    fun u d hu => (rangeTableIsTheSpecs _ _).2 (not_not.1 (hvoices u d hu)),
    fun d hd => (rangeTableIsTheSpecs _ _).2 (not_not.1 (hcontrols d hd)), rfl⟩

/-- Settles O32: SET raises its own operand, SAVE what its check reports. -/
theorem outOfRangeNamesVoiceControlAndValue : Obligations.OutOfRangeNamesVoiceControlAndValue := by
  intro s v c hkit
  refine ⟨fun imm hbad => ?_, fun hfirst => exec_save_of_saveCheck hkit (saveCheck_of_firstBadControl hfirst)⟩
  exact exec_set_of_outOfRange (controlOfCode_controlCode c) hkit ((rangeOK_eq_false_iff c (immValue imm)).2 hbad)

/-! ### The two ways a command ends (60_exceptions.md R206) -/

/-- The diagnostic an error carries is a ground for that error: a length that is no total, bytes that are not the marker, a
value outside the range of a control (60_exceptions.md R202, R204, R205). -/
def Justified (p : Params) : EngineError → Prop
  | .malformedRecord len => ∀ fmt, len.toNat ≠ total p fmt
  | .markerMismatch _ found => found ≠ 0x160A181A
  | .outOfRange _ c value => ∃ ctl, c = controlCode ctl ∧ ¬ InRange ctl value.toInt
  | .sourceUnavailable => True
  | .illegalCommand => True
  | .noKit => True

/-- Raising an error leaves the diagnostics of its code exactly when the error is justified. -/
theorem diagnosticsMatch_raised (e : EngineError) (s : State) :
    DiagnosticsMatch (State.raised e s) ↔ Justified s.cfg.p e := by
  cases e <;> simp [DiagnosticsMatch, Justified, errorCode, errorVoice, errorCtrl, errorFound, errorValue]

/-- Completing leaves no diagnostics. -/
theorem diagnosticsMatch_completed (s : State) : DiagnosticsMatch (State.completed s) := by
  simp [DiagnosticsMatch]

/-- The found bytes pack to the marker's word only if they are the marker. -/
theorem markerAt_of_foundWord {p : Params} {buf : Memory} {fmt : Format} {v : Voice}
    (h : foundWord p buf fmt v = 0x160A181A) : MarkerAt p buf fmt v := by
  have hnat := congrArg BitVec.toNat h
  have h0 := (Memory.read buf (vbase p v fmt + 4)).isLt
  have h1 := (Memory.read buf (vbase p v fmt + 5)).isLt
  have h2 := (Memory.read buf (vbase p v fmt + 6)).isLt
  have h3 := (Memory.read buf (vbase p v fmt + 7)).isLt
  simp only [foundWord, BitVec.toNat_ofNat, BitVec.ofNat_eq_ofNat] at hnat
  refine ⟨?_, ?_, ?_, ?_⟩ <;>
  · apply BitVec.eq_of_toNat_eq
    simp only [BitVec.ofNat_eq_ofNat, BitVec.toNat_ofNat]
    omega

theorem justified_of_detectInput {s : State} {e : EngineError} (h : detectInput s = .error e) : Justified s.cfg.p e := by
  rcases (detectInput_eq_error s e).1 h with ⟨-, rfl⟩ | ⟨-, hno, rfl⟩ | ⟨-, fmt, v, -, hbad, -, rfl⟩
  · trivial
  · exact hno
  · rw [packFound_foundMarker]
    exact fun hword => (markerOK_eq_false_iff _ _ _ _).1 hbad (markerAt_of_foundWord hword)

/-- A byte zero-extended to 16 bits keeps its value as a signed number. -/
theorem toInt_setWidth_byte (b : Byte) : (b.setWidth 16).toInt = b.toNat := by
  have hb := b.isLt
  have hnat : (b.setWidth 16).toNat = b.toNat := BitVec.toNat_setWidth_of_le (by decide)
  rw [BitVec.toInt_eq_toNat_of_lt (by omega), hnat]

theorem justified_of_saveCheck {s : State} {e : EngineError} (h : saveCheck s = some e) : Justified s.cfg.p e := by
  obtain ⟨v, c, hbad, -, -, rfl⟩ := (saveCheck_eq_some s e).1 h
  refine ⟨c, rfl, ?_⟩
  rw [toInt_setWidth_byte]
  exact (rangeOK_eq_false_iff _ _).1 hbad

/-- A command ends by raising an error it is justified in raising, or by completing. -/
theorem exec_end_cases {i : Instr} {s t : State} (h : exec i s = .next t) :
    (∃ e, Justified s.cfg.p e ∧ t = State.raised e s) ∨ ∃ u, t = State.completed u := by
  cases i with
  | detect =>
    rcases execDetect_eq s with ⟨e, hd, he⟩ | ⟨fmt, -, he⟩
    · exact .inl ⟨e, justified_of_detectInput hd, next_unique he h⟩
    · exact .inr ⟨_, next_unique he h⟩
  | load =>
    rcases execLoad_eq s with ⟨e, hd, he⟩ | ⟨fmt, -, he⟩
    · exact .inl ⟨e, justified_of_detectInput hd, next_unique he h⟩
    · exact .inr ⟨_, next_unique he h⟩
  | save =>
    rcases execSave_eq s with ⟨-, he⟩ | ⟨e, -, hcheck, he⟩ | ⟨-, -, he⟩
    · exact .inl ⟨.noKit, trivial, next_unique he h⟩
    · exact .inl ⟨e, justified_of_saveCheck hcheck, next_unique he h⟩
    · exact .inr ⟨_, next_unique he h⟩
  | get v c =>
    rcases execGet_eq v c s with ⟨-, he⟩ | ⟨ctl, -, -, he⟩ | ⟨ctl, -, -, he⟩
    · exact .inl ⟨.illegalCommand, trivial, next_unique he h⟩
    · exact .inl ⟨.noKit, trivial, next_unique he h⟩
    · exact .inr ⟨_, next_unique he h⟩
  | set v c imm =>
    rcases execSet_eq v c imm s with ⟨-, he⟩ | ⟨ctl, -, -, he⟩ | ⟨ctl, hc, -, hr, he⟩ | ⟨ctl, -, -, -, he⟩
    · exact .inl ⟨.illegalCommand, trivial, next_unique he h⟩
    · exact .inl ⟨.noKit, trivial, next_unique he h⟩
    · exact .inl ⟨.outOfRange v c imm, ⟨ctl, controlOfCode_eq_some.1 hc, (rangeOK_eq_false_iff _ _).1 hr⟩, next_unique he h⟩
    · exact .inr ⟨_, next_unique he h⟩

/-- Settles O42: by the two ways a command ends. Raising writes STATUS.ERR and the ERR_* registers alone, and completing
zeroes them. -/
theorem errorsArePrecise : Obligations.ErrorsArePrecise := by
  intro i s t h
  rcases exec_end_cases h with ⟨e, hjust, rfl⟩ | ⟨u, rfl⟩
  · exact ⟨(diagnosticsMatch_raised e s).2 hjust, .inr ⟨errorCode_ne_ok e, rfl⟩⟩
  · exact ⟨diagnosticsMatch_completed u, .inl ⟨rfl, rfl, rfl, rfl, rfl⟩⟩

/-! ### The repeated command (60_exceptions.md R209) -/

theorem detectInput_raised (e : EngineError) (s : State) : detectInput (State.raised e s) = detectInput s := rfl

theorem saveCheck_raised (e : EngineError) (s : State) : saveCheck (State.raised e s) = saveCheck s := rfl

/-- No command reads STATUS.ERR or the ERR_* registers, and every way a command ends writes all of them: an error raised
before it leaves no trace. -/
theorem exec_raised (i : Instr) (e : EngineError) (s : State) : exec i (State.raised e s) = exec i s := by
  cases i with
  | detect => simp only [exec, execDetect, detectInput_raised]; rfl
  | load => simp only [exec, execLoad, detectInput_raised, raised_cfg, raised_inBuf]; rfl
  | save => simp only [exec, execSave, saveCheck_raised, raised_kitValid]; rfl
  | get v c => rfl
  | set v c imm => rfl

/-- Settles O43: a command that did not complete raised, and the state it left answers the command as the first one did. -/
theorem repeatedCommandRaisesTheSameError : Obligations.RepeatedCommandRaisesTheSameError := by
  intro i s t h herr
  rcases exec_end_cases h with ⟨e, -, rfl⟩ | ⟨u, rfl⟩
  · exact (exec_raised i e s).trans h
  · exact absurd (completed_err u) herr

end Sys2Proof.Proofs

/-! PROOFS. The family 70_reset_and_hazards.md: the registers and the stores after a reset (R230). -/

namespace Sys2Proof.Proofs

open Sys2Proof.Machine Sys2Proof.Safety Sys2Proof.Laws

/-! ### The state after a reset (70_reset_and_hazards.md R230) -/

/-- Every register reads 0 after a reset: each of its fields is 0. -/
@[simp] theorem regRead_afterReset (d : PowerUp) (s : State) (r : Reg) : regRead (State.afterReset d s) r = 0 := by
  cases r with
  | cmd | result | inLen | outLen | errFound | errValue => rfl
  | status => exact BitVec.eq_of_toNat_eq (statusWord_toNat _)
  | srcCtrl => exact BitVec.eq_of_toNat_eq (srcCtrlWord_toNat _)
  | errInfo => exact BitVec.eq_of_toNat_eq (errInfoWord_toNat _)

/-- The power-up contents that list the given bytes, as far as any legal parameter choice lets a store reach. -/
def powerUpWith (inB outB vsB hsB : Nat → Byte) : PowerUp where
  inBytes := (List.range 256).map inB
  outBytes := (List.range 256).map outB
  vsBytes := (List.range 128).map vsB
  hsBytes := (List.range hdrMax).map hsB

/-- A store of `size` bytes filled from the listed values of `f` reads as `f` at every index both listed and in the store. -/
theorem read_ofBytes_take_map_range (f : Nat → Byte) {a n size : Nat} (hn : a < n) (hsize : a < size) :
    Memory.read (Memory.ofBytes (((List.range n).map f).take size)) a = f a := by
  rw [read_ofBytes, List.getD_eq_getElem?_getD, List.getElem?_take_of_lt hsize]
  simp [hn]

/-- Settles O16: the registers by their fields, and the stores by the power-up contents that list the given bytes, which no
buffer outgrows. -/
theorem resetZeroesRegistersAndLeavesStoresOpen : Obligations.ResetZeroesRegistersAndLeavesStoresOpen := by
  refine ⟨fun s d rest h => ?_, fun inB outB vsB hsB => ⟨powerUpWith inB outB vsB hsB, fun s rest h => ?_⟩⟩
  · exact ⟨_, step_reset h, fun r => regRead_afterReset _ _ r, rfl, rfl, rfl, rfl, rfl, rfl⟩
  · have hin : s.cfg.p.inCap ≤ 256 := (legal_inCap s.cfg).2.2
    have hout : s.cfg.p.outCap ≤ 256 := (legal_outCap s.cfg).2.2
    refine ⟨_, step_reset h, fun a ha => ?_, fun a ha => ?_, fun v o ho => ?_, fun i hi => ?_⟩
    · exact read_ofBytes_take_map_range inB (ha.trans_le hin) ha
    · exact read_ofBytes_take_map_range outB (ha.trans_le hout) ha
    · exact read_ofBytes_take_map_range vsB (vsAddr_lt ho) (vsAddr_lt ho)
    · exact read_ofBytes_take_map_range hsB hi hi

end Sys2Proof.Proofs

/-! PROOFS. The statements over all commands and all steps: the round trip of the encoding, what a command leaves of the
host's state, which accesses the port answers and which it refuses, the effects of the five commands, and the conditions
that every step keeps. -/

namespace Sys2Proof.Proofs

open Sys2Proof.Machine Sys2Proof.Safety Sys2Proof.Laws

/-! ### The encoding (30_encoding.md R91, R92, R97) -/

/-- Settles O2: the decoder finds in the assembled word the fields that the encoder put there. -/
theorem encodedCommandDecodesBack : Obligations.EncodedCommandDecodesBack :=
  fun _ => decode_encode_of_wellFormed

/-- Settles O3: the decoder checks that every field a command does not use is 0, so the word it accepts is the assembled
one. -/
theorem decodedWordEncodesBack : Obligations.DecodedWordEncodesBack :=
  fun _ _ => wellFormed_and_encode_of_decode

/-- Settles O1: each word is a literal of the spec. -/
theorem specExampleWordsDecode : Obligations.SpecExampleWordsDecode :=
  ⟨rfl, rfl, rfl, rfl, rfl, rfl, rfl, rfl⟩

/-- Settles O34: the sixteen identifiers by evaluation, and the inverse by the table of identifiers. -/
theorem controlIdentifiersAreTheSpecs : Obligations.ControlIdentifiersAreTheSpecs :=
  ⟨rfl, controlOfCode_controlCode⟩

/-! ### What a command writes (10_state.md R29, 20_memory.md R79) -/

/-- No command stops the block (60_exceptions.md R206). -/
theorem exec_answers (i : Instr) (s : State) : Answers (exec i s) := by
  cases i with
  | detect => rcases execDetect_eq s with ⟨e, -, h⟩ | ⟨fmt, -, h⟩ <;> exact ⟨_, h⟩
  | load => rcases execLoad_eq s with ⟨e, -, h⟩ | ⟨fmt, -, h⟩ <;> exact ⟨_, h⟩
  | save => rcases execSave_eq s with ⟨-, h⟩ | ⟨e, -, -, h⟩ | ⟨-, -, h⟩ <;> exact ⟨_, h⟩
  | get v c => rcases execGet_eq v c s with ⟨-, h⟩ | ⟨ctl, -, -, h⟩ | ⟨ctl, -, -, h⟩ <;> exact ⟨_, h⟩
  | set v c imm =>
    rcases execSet_eq v c imm s with ⟨-, h⟩ | ⟨ctl, -, -, h⟩ | ⟨ctl, -, -, -, h⟩ | ⟨ctl, -, -, -, h⟩ <;> exact ⟨_, h⟩

/-- Settles O44: each way a command ends is a next state. -/
theorem everyCommandAnswers : Obligations.EveryCommandAnswers := exec_answers

/-- What a command can do: raise an error, write RESULT alone (DETECT, GET), replace the kit (LOAD), write the record (SAVE)
or write one control (SET). -/
theorem exec_cases {i : Instr} {s t : State} (h : exec i s = .next t) :
    (∃ e, t = State.raised e s) ∨
    (∃ r, (i = .detect ∨ ∃ v c, i = .get v c) ∧ t = State.completed { s with result := r }) ∨
    (∃ fmt, i = .load ∧ t = State.loaded fmt s) ∨
    (i = .save ∧ saveCheck s = none ∧ t = State.saved s) ∨
    (∃ v c ctl imm, i = .set v c imm ∧ t = State.controlSet v ctl imm s) := by
  cases i with
  | detect =>
    rcases execDetect_eq s with ⟨e, -, he⟩ | ⟨fmt, -, he⟩
    · exact .inl ⟨e, next_unique he h⟩
    · exact .inr (.inl ⟨_, .inl rfl, next_unique he h⟩)
  | load =>
    rcases execLoad_eq s with ⟨e, -, he⟩ | ⟨fmt, -, he⟩
    · exact .inl ⟨e, next_unique he h⟩
    · exact .inr (.inr (.inl ⟨fmt, rfl, next_unique he h⟩))
  | save =>
    rcases exec_save_cases h with ⟨e, he⟩ | ⟨-, hcheck, he⟩
    · exact .inl ⟨e, he⟩
    · exact .inr (.inr (.inr (.inl ⟨rfl, hcheck, he⟩)))
  | get v c =>
    rcases execGet_eq v c s with ⟨-, he⟩ | ⟨ctl, -, -, he⟩ | ⟨ctl, -, -, he⟩
    iterate 2 · exact .inl ⟨_, next_unique he h⟩
    · exact .inr (.inl ⟨_, .inr ⟨v, c, rfl⟩, next_unique he h⟩)
  | set v c imm =>
    rcases execSet_eq v c imm s with ⟨-, he⟩ | ⟨ctl, -, -, he⟩ | ⟨ctl, -, -, -, he⟩ | ⟨ctl, -, -, -, he⟩
    iterate 3 · exact .inl ⟨_, next_unique he h⟩
    · exact .inr (.inr (.inr (.inr ⟨v, c, ctl, imm, rfl, next_unique he h⟩)))

/-- `t` agrees with `s` in what the host owns, in the parameters and in the run's record. -/
def KeepsHostState (s t : State) : Prop :=
  t.cfg = s.cfg ∧ t.cmd = s.cmd ∧ t.inLen = s.inLen ∧ t.srcErr = s.srcErr ∧ t.inBuf = s.inBuf ∧
    t.events = s.events ∧ t.reads = s.reads

/-- No command writes what the host owns. -/
theorem exec_keepsHostState {i : Instr} {s t : State} (h : exec i s = .next t) : KeepsHostState s t := by
  rcases exec_cases h with ⟨e, rfl⟩ | ⟨r, -, rfl⟩ | ⟨fmt, -, rfl⟩ | ⟨-, -, rfl⟩ | ⟨v, c, ctl, imm, -, rfl⟩ <;>
    exact ⟨rfl, rfl, rfl, rfl, rfl, rfl, rfl⟩

theorem exec_cfg {i : Instr} {s t : State} (h : exec i s = .next t) : t.cfg = s.cfg := by
  obtain ⟨hcfg, -⟩ := exec_keepsHostState h
  exact hcfg

theorem exec_inBuf {i : Instr} {s t : State} (h : exec i s = .next t) : t.inBuf = s.inBuf := by
  obtain ⟨-, -, -, -, hbuf, -⟩ := exec_keepsHostState h
  exact hbuf

/-- What a command can do to the output: nothing, or write the record of the held kit (a completed SAVE). -/
theorem exec_output_cases {i : Instr} {s t : State} (h : exec i s = .next t) :
    (t.outBuf = s.outBuf ∧ t.outLen = s.outLen) ∨ (i = .save ∧ saveCheck s = none ∧ t = State.saved s) := by
  rcases exec_cases h with ⟨e, rfl⟩ | ⟨r, -, rfl⟩ | ⟨fmt, -, rfl⟩ | hsaved | ⟨v, c, ctl, imm, -, rfl⟩
  iterate 3 · exact .inl ⟨rfl, rfl⟩
  · exact .inr hsaved
  · exact .inl ⟨rfl, rfl⟩

/-- A SET writes at most one byte of the voice store, beside STATUS.ERR and the ERR_* registers (41_voice_codec.md R152). -/
theorem exec_set_frame {v : Voice} {c : BitVec 4} {imm : Half} {s t : State} (h : exec (.set v c imm) s = .next t) :
    t.result = s.result ∧ t.hs = s.hs ∧ t.kitValid = s.kitValid ∧ t.format = s.format := by
  rcases exec_cases h with ⟨e, rfl⟩ | ⟨r, hi, -⟩ | ⟨fmt, hi, -⟩ | ⟨hi, -, -⟩ | ⟨u, d, ctl, value, -, rfl⟩
  · exact ⟨rfl, rfl, rfl, rfl⟩
  iterate 3 · simp at hi
  · exact ⟨rfl, rfl, rfl, rfl⟩

/-- Only LOAD and SET touch the kit. -/
theorem exec_sameKit {i : Instr} {s t : State} (hload : i ≠ .load) (hset : ∀ v c imm, i ≠ .set v c imm)
    (h : exec i s = .next t) : SameKit s t := by
  rcases exec_kit_cases h with hsame | ⟨fmt, rfl, -, -⟩ | ⟨v, c, ctl, imm, rfl, -, -, -, -⟩
  · exact hsame
  · exact absurd rfl hload
  · exact absurd rfl (hset v c imm)

/-- Settles O45: the host's fields are none of those the engine writes; the output, the kit and RESULT by the commands that
write them. -/
theorem commandsKeepTheHostsState : Obligations.CommandsKeepTheHostsState := by
  intro i s t h
  obtain ⟨hcfg, hcmd, hinLen, hsrc, hin, hevents, hreads⟩ := exec_keepsHostState h
  refine ⟨hcfg, hcmd, hinLen, hsrc, hin, hevents, hreads, fun hsave => ?_, fun hi => ?_, ?_⟩
  · rcases exec_output_cases h with hout | ⟨rfl, -, -⟩
    · exact hout
    · exact absurd rfl hsave
  · refine exec_sameKit ?_ ?_ h <;> rcases hi with rfl | rfl | ⟨v, c, rfl⟩ <;> simp
  · rintro ⟨v, c, imm, rfl⟩
    exact exec_set_frame h

/-! ### What a step can do (70_reset_and_hazards.md R241) -/

/-- A step runs a command, refuses an illegal word, is an access that at most writes IN, IN_LEN or SRC_CTRL or is idle, or
resets the block. -/
theorem step_cases {s t : State} (h : step s = .next t) :
    (∃ w i rest, s.events = commandWrite s.cfg.p w :: rest ∧ decode w = .ok i ∧
      exec i { s with events := rest, cmd := w } = .next t) ∨
    (∃ w rest, t = State.raised .illegalCommand { s with events := rest, cmd := w }) ∨
    (∃ evs len src m rs, (m = s.inBuf ∨ ∃ a b, a < s.cfg.p.inCap ∧ m = Memory.write s.inBuf a b) ∧
      t = { s with events := evs, inLen := len, srcErr := src, inBuf := m, reads := rs }) ∨
    (∃ d rest, s.events = .reset d :: rest ∧ t = State.afterReset d { s with events := rest }) := by
  cases hev : s.events with
  | nil =>
    rw [step_nil hev] at h
    cases h
    exact .inr (.inr (.inl ⟨_, _, _, _, _, .inl rfl, rfl⟩))
  | cons e rest =>
    rw [step_cons hev] at h
    rcases handleEvent_next h with ⟨w, i, rfl, hd, hx⟩ | ⟨w, err, -, -, rfl⟩ | ⟨w, -, rfl⟩ | ⟨w, -, rfl⟩ |
      ⟨r, w, -, -, -, -, rfl⟩ | ⟨a, b, -, ha, rfl⟩ | ⟨a, b, -, -, rfl⟩ | ⟨r, -, -, -, rfl⟩ | ⟨d, rfl, rfl⟩
    · exact .inl ⟨w, i, rest, rfl, hd, hx⟩
    · exact .inr (.inl ⟨w, rest, rfl⟩)
    iterate 3 · exact .inr (.inr (.inl ⟨_, _, _, _, _, .inl rfl, rfl⟩))
    · exact .inr (.inr (.inl ⟨_, _, _, _, _, .inr ⟨a, b, ha, rfl⟩, rfl⟩))
    iterate 2 · exact .inr (.inr (.inl ⟨_, _, _, _, _, .inl rfl, rfl⟩))
    · exact .inr (.inr (.inr ⟨d, rest, rfl, rfl⟩))

theorem step_cfg {s t : State} (h : step s = .next t) : t.cfg = s.cfg := by
  rcases step_cases h with ⟨w, i, rest, -, -, hx⟩ | ⟨w, rest, rfl⟩ | ⟨evs, len, src, m, rs, -, rfl⟩ | ⟨d, rest, -, rfl⟩
  · exact exec_cfg (s := { s with events := rest, cmd := w }) hx
  all_goals rfl

/-! ### The output is a record (42_kit_codec.md R177, R178) -/

/-- A toggle is a control of kind toggle (10_state.md R22). -/
theorem controlKind_eq_toggle (c : Control) : controlKind c = .toggle ↔ c = .algo ∨ c = .mode ∨ c = .vcf := by
  cases c <;> simp [controlKind]

/-- Below the markers and above them, a saved record has the control bytes of the kit. -/
theorem saved_outBuf_control (s : State) (v : Voice) (c : Control) :
    Memory.read (State.saved s).outBuf (vbase s.cfg.p v s.format + ctrlOff s.cfg.p c) = controlByte s v c := by
  have hoff := ctrlOff_range s.cfg c
  have hlen := vlen_range v s.format
  rw [saved_outBuf_window s v (by omega), if_neg (by omega), controlByte]

/-- What passes SAVE's range check is a record with its toggles in range. -/
theorem outputIsRecord_saved {s : State} (hcheck : saveCheck s = none) : OutputIsRecord (State.saved s) := by
  refine .inr ⟨s.format, saved_outLen s, markerAt_saved s, fun v c htoggle => ?_⟩
  have hrange := (rangeOK_byte c _).1 ((saveCheck_eq_none s).1 hcheck v c) ((controlKind_eq_toggle c).2 htoggle)
  rw [← saved_outBuf_control] at hrange
  exact hrange

/-- The condition rests on the parameters, OUT and OUT_LEN alone. -/
theorem outputIsRecord_congr {s t : State} (hcfg : t.cfg = s.cfg) (hbuf : t.outBuf = s.outBuf) (hlen : t.outLen = s.outLen)
    (hs : OutputIsRecord s) : OutputIsRecord t := by
  rw [OutputIsRecord, hcfg, hbuf, hlen]
  exact hs

theorem exec_keeps_outputIsRecord {i : Instr} {s t : State} (hs : OutputIsRecord s) (h : exec i s = .next t) :
    OutputIsRecord t := by
  rcases exec_output_cases h with ⟨hbuf, hlen⟩ | ⟨-, hcheck, rfl⟩
  · exact outputIsRecord_congr (exec_cfg h) hbuf hlen hs
  · exact outputIsRecord_saved hcheck

/-- Settles O55: only a completed SAVE writes OUT and OUT_LEN, and it writes a record; a reset leaves OUT_LEN = 0. -/
theorem stepKeepsTheOutputARecord : Obligations.StepKeepsTheOutputARecord := by
  intro s t hs h
  rcases step_cases h with ⟨w, i, rest, -, -, hx⟩ | ⟨w, rest, rfl⟩ | ⟨evs, len, src, m, rs, -, rfl⟩ | ⟨d, rest, -, rfl⟩
  · exact exec_keeps_outputIsRecord (s := { s with events := rest, cmd := w }) hs hx
  · exact outputIsRecord_congr rfl rfl rfl hs
  · exact outputIsRecord_congr rfl rfl rfl hs
  · exact .inl (afterReset_outLen d _)

/-! ### The port: which events answer (20_memory.md R70, R73) -/

/-- Settles O7: idling by the empty list of events, and of the others a step takes the first and keeps the parameters. -/
theorem stepTakesExactlyOneEvent : Obligations.StepTakesExactlyOneEvent := by
  intro s
  refine ⟨step_nil, fun e rest t hev h => ⟨?_, step_cfg h⟩⟩
  rw [step_events h, hev, List.tail_cons]

/-- The register words are the addresses of registers (10_state.md R29). -/
theorem registerAddress_iff (p : Params) (addr : Nat) :
    RegisterAddress p addr ↔ ∃ r, regionOfAddr p addr = .register r := by
  simp only [regionOfAddr_eq_register]
  constructor
  · rintro ⟨hbase, hlt, hmod⟩
    obtain ⟨r, hr⟩ := (regAt_isSome hlt).2 hmod
    have := regOffset_of_regAt hr
    exact ⟨r, by omega⟩
  · rintro ⟨r, rfl⟩
    rw [RegisterAddress, Nat.add_sub_cancel_left]
    exact ⟨Nat.le_add_right _ _, by cases r <;> decide⟩

/-- The buffer addresses are those of the bytes of IN and of OUT (20_memory.md R71, R72). -/
theorem bufferAddress_iff (cfg : Config) (addr : Nat) :
    BufferAddress cfg.p addr ↔
      (∃ a, regionOfAddr cfg.p addr = .inByte a) ∨ ∃ a, regionOfAddr cfg.p addr = .outByte a := by
  constructor
  · rintro (⟨hlo, hhi⟩ | ⟨hlo, hhi⟩)
    · obtain ⟨a, rfl⟩ := Nat.exists_eq_add_of_le hlo
      exact .inl ⟨a, regionOfAddr_in (by omega) (legal_inCap cfg).2.2⟩
    · obtain ⟨a, rfl⟩ := Nat.exists_eq_add_of_le hlo
      exact .inr ⟨a, regionOfAddr_out (by omega) (legal_outCap cfg).2.2⟩
  · rintro (⟨a, ha⟩ | ⟨a, ha⟩)
    · obtain ⟨hlt, rfl⟩ := regionOfAddr_eq_inByte ha
      exact .inl ⟨by omega, by omega⟩
    · obtain ⟨hlt, rfl⟩ := regionOfAddr_eq_outByte ha
      exact .inr ⟨by omega, by omega⟩

section
variable {s : State} {addr : Nat}

/-- A 32-bit access of anything but a register is refused (20_memory.md R73). -/
theorem hostAccess32_refused (h : ∀ r, regionOfAddr s.cfg.p addr ≠ .register r) (w : Word) :
    hostWrite32 addr w s = refuseAccess s.cfg.p addr ∧ hostRead32 addr s = refuseAccess s.cfg.p addr := by
  unfold hostWrite32 hostRead32
  cases hr : regionOfAddr s.cfg.p addr with
  | register r => exact absurd hr (h r)
  | insideRegister | inByte a | outByte a | reserved | outside => exact ⟨rfl, rfl⟩

/-- An 8-bit access of anything but a byte of IN or OUT is refused (20_memory.md R73). -/
theorem hostAccess8_refused (hin : ∀ a, regionOfAddr s.cfg.p addr ≠ .inByte a)
    (hout : ∀ a, regionOfAddr s.cfg.p addr ≠ .outByte a) (b : Byte) :
    hostWrite8 addr b s = refuseAccess s.cfg.p addr ∧ hostRead8 addr s = refuseAccess s.cfg.p addr := by
  unfold hostWrite8 hostRead8
  cases hr : regionOfAddr s.cfg.p addr with
  | inByte a => exact absurd hr (hin a)
  | outByte a => exact absurd hr (hout a)
  | register r | insideRegister | reserved | outside => exact ⟨rfl, rfl⟩

end

theorem runCommand_answers (w : Word) (s : State) : Answers (runCommand w s) := by
  unfold runCommand
  split
  · exact exec_answers _ _
  · exact ⟨_, rfl⟩

theorem regWrite_answers (w : Word) (s : State) (r : Reg) : Answers (regWrite w s r) := by
  cases r with
  | cmd => exact runCommand_answers w s
  | status | result | inLen | outLen | srcCtrl | errInfo | errFound | errValue => exact ⟨_, rfl⟩

/-- An event of the protocol has an answer. -/
theorem handleEvent_answers {e : Event} {s : State} (h : InProtocol s.cfg.p e) : Answers (handleEvent e s) := by
  cases e with
  | wr32 addr w =>
    obtain ⟨r, hr⟩ := (registerAddress_iff _ _).1 h
    simp only [handleEvent, hostWrite32, hr]
    exact regWrite_answers w s r
  | rd32 addr =>
    obtain ⟨r, hr⟩ := (registerAddress_iff _ _).1 h
    simp only [handleEvent, hostRead32, hr]
    exact ⟨_, rfl⟩
  | wr8 addr b =>
    rcases (bufferAddress_iff s.cfg addr).1 h with ⟨a, ha⟩ | ⟨a, ha⟩ <;> simp only [handleEvent, hostWrite8, ha] <;>
      exact ⟨_, rfl⟩
  | rd8 addr =>
    rcases (bufferAddress_iff s.cfg addr).1 h with ⟨a, ha⟩ | ⟨a, ha⟩ <;> simp only [handleEvent, hostRead8, ha] <;>
      exact ⟨_, rfl⟩
  | otherWidth bits addr => exact h.elim
  | reset d => exact ⟨_, rfl⟩

/-- Any other event is refused (20_memory.md R73). -/
theorem handleEvent_refused {e : Event} {s : State} (h : ¬ InProtocol s.cfg.p e) : ∃ r, handleEvent e s = .refused r := by
  cases e with
  | wr32 addr w =>
    have hno := not_exists.1 (mt (registerAddress_iff _ _).2 h)
    exact (refuseAccess_refused _ addr).imp fun _ => (hostAccess32_refused hno w).1.trans
  | rd32 addr =>
    have hno := not_exists.1 (mt (registerAddress_iff _ _).2 h)
    exact (refuseAccess_refused _ addr).imp fun _ => (hostAccess32_refused hno 0).2.trans
  | wr8 addr b =>
    obtain ⟨hin, hout⟩ := not_or.1 (mt (bufferAddress_iff s.cfg addr).2 h)
    exact (refuseAccess_refused _ addr).imp fun _ => (hostAccess8_refused (not_exists.1 hin) (not_exists.1 hout) b).1.trans
  | rd8 addr =>
    obtain ⟨hin, hout⟩ := not_or.1 (mt (bufferAddress_iff s.cfg addr).2 h)
    exact (refuseAccess_refused _ addr).imp fun _ => (hostAccess8_refused (not_exists.1 hin) (not_exists.1 hout) 0).2.trans
  | otherWidth bits addr => exact refuseAccess_refused _ addr
  | reset d => exact absurd trivial h

/-- Settles O9: an event of the protocol answers, any other is refused, and a refusal is no answer. -/
theorem protocolEventsAnswer : Obligations.ProtocolEventsAnswer := by
  intro s e rest hev
  rw [step_cons hev]
  have hrefused : ¬ InProtocol s.cfg.p e → ∃ r, handleEvent e { s with events := rest } = .refused r :=
    handleEvent_refused (s := { s with events := rest })
  refine ⟨⟨fun ⟨t, ht⟩ => ?_, handleEvent_answers (s := { s with events := rest })⟩, hrefused⟩
  by_contra hout
  obtain ⟨r, hr⟩ := hrefused hout
  rw [ht] at hr
  cases hr

theorem run_succ_of_step {s t : State} (h : step s = .next t) (k : Nat) :
    Host.Core.run Sys2Proof.core (k + 1) s = Host.Core.run Sys2Proof.core k t := by
  have hcore : Sys2Proof.core.step s = .next t := h
  simp only [Host.Core.run, hcore]

/-- Settles O10: each step answers, by its event or by idling, and leaves events of the protocol waiting. -/
theorem protocolRunNeverStops : Obligations.ProtocolRunNeverStops := by
  intro s k hin
  induction k generalizing s with
  | zero => exact ⟨s, rfl⟩
  | succ k ih =>
    have hanswers : Answers (step s) := by
      cases hev : s.events with
      | nil => exact ⟨s, step_nil hev⟩
      | cons e rest =>
        rw [step_cons hev]
        exact handleEvent_answers (s := { s with events := rest }) (hin e (by simp [hev]))
    obtain ⟨t, ht⟩ := hanswers
    rw [run_succ_of_step ht]
    refine ih t fun e he => ?_
    rw [step_events ht] at he
    rw [step_cfg ht]
    exact hin e (List.mem_of_mem_tail he)

/-! ### The port: what a refusal names (20_memory.md R73; log 6) -/

section
variable (cfg : Config) {off : Nat}

/-- Below 0x24 stand the registers and the offsets inside them. -/
theorem regionOfAddr_low (h : off < 0x24) :
    (off % 4 = 0 ∧ ∃ r, regionOfAddr cfg.p (cfg.p.hostBase + off) = .register r) ∨
    (off % 4 ≠ 0 ∧ regionOfAddr cfg.p (cfg.p.hostBase + off) = .insideRegister) := by
  rw [show cfg.p.hostBase + off = busAddr cfg.p off from rfl, regionOfAddr_busAddr, regionAt, if_pos h]
  cases hr : regAt off with
  | some r => exact .inl ⟨(regAt_isSome h).1 ⟨r, hr⟩, r, rfl⟩
  | none => exact .inr ⟨fun hmod => by simpa [hr] using (regAt_isSome h).2 hmod, rfl⟩

theorem regionOfAddr_reserved
    (h : (0x24 ≤ off ∧ off < 0x100) ∨ (0x100 + cfg.p.inCap ≤ off ∧ off < 0x200) ∨
      (0x200 + cfg.p.outCap ≤ off ∧ off < 0x300)) :
    regionOfAddr cfg.p (cfg.p.hostBase + off) = .reserved := by
  rw [show cfg.p.hostBase + off = busAddr cfg.p off from rfl, regionOfAddr_busAddr]
  unfold regionAt inWindow outWindow windowSize
  rcases h with ⟨hlo, hhi⟩ | ⟨hlo, hhi⟩ | ⟨hlo, hhi⟩
  · rw [if_neg (by omega), if_pos hhi]
  · rw [if_neg (by omega), if_neg (by omega), if_pos hhi, if_neg (by omega)]
  · rw [if_neg (by omega), if_neg (by omega), if_neg (by omega), if_pos hhi, if_neg (by omega)]

theorem regionOfAddr_buffer
    (h : (0x100 ≤ off ∧ off < 0x100 + cfg.p.inCap) ∨ (0x200 ≤ off ∧ off < 0x200 + cfg.p.outCap)) :
    (∃ a, regionOfAddr cfg.p (cfg.p.hostBase + off) = .inByte a) ∨
    ∃ a, regionOfAddr cfg.p (cfg.p.hostBase + off) = .outByte a := by
  refine (bufferAddress_iff cfg _).1 (h.imp (fun hin => ?_) fun hout => ?_) <;> omega

theorem refuseAccess_low (h : off < 0x24) :
    refuseAccess cfg.p (cfg.p.hostBase + off) = .refused (.registerAccess off) := by
  rcases regionOfAddr_low cfg h with ⟨-, r, hr⟩ | ⟨-, hr⟩ <;> simp [refuseAccess, hr]

theorem refuseAccess_of_reserved (h : regionOfAddr cfg.p (cfg.p.hostBase + off) = .reserved) :
    refuseAccess cfg.p (cfg.p.hostBase + off) = .refused (.reservedOffset off) := by
  simp [refuseAccess, h]

theorem refuseAccess_buffer
    (h : (0x100 ≤ off ∧ off < 0x100 + cfg.p.inCap) ∨ (0x200 ≤ off ∧ off < 0x200 + cfg.p.outCap)) :
    refuseAccess cfg.p (cfg.p.hostBase + off) = .refused (.bufferAccess off) := by
  rcases regionOfAddr_buffer cfg h with ⟨a, ha⟩ | ⟨a, ha⟩ <;> simp [refuseAccess, ha]

end

section
variable {s : State} {a : Nat} {w : Word} {e : Event} {rest : List Event}

/-- The step of a 32-bit access at an address that is no register's. -/
theorem step_access32_refused (hno : ∀ r, regionOfAddr s.cfg.p a ≠ .register r) (he : e = .wr32 a w ∨ e = .rd32 a)
    (hev : s.events = e :: rest) : step s = refuseAccess s.cfg.p a := by
  obtain ⟨hwrite, hread⟩ := hostAccess32_refused (s := { s with events := rest }) hno w
  rw [step_cons hev]
  rcases he with rfl | rfl
  · exact hwrite
  · exact hread

/-- The step of an 8-bit access at an address that is no buffer byte's. -/
theorem step_access8_refused {b : Byte} (hin : ∀ x, regionOfAddr s.cfg.p a ≠ .inByte x)
    (hout : ∀ x, regionOfAddr s.cfg.p a ≠ .outByte x) (he : e = .wr8 a b ∨ e = .rd8 a)
    (hev : s.events = e :: rest) : step s = refuseAccess s.cfg.p a := by
  obtain ⟨hwrite, hread⟩ := hostAccess8_refused (s := { s with events := rest }) hin hout b
  rw [step_cons hev]
  rcases he with rfl | rfl
  · exact hwrite
  · exact hread

/-- The step of an access of another width (20_memory.md R66). -/
theorem step_otherWidth {n : Nat} (hev : s.events = .otherWidth n a :: rest) : step s = refuseAccess s.cfg.p a :=
  step_cons hev

end

/-- Settles O8: the region of the offset says which widths it refuses, and the refusal is the region's. -/
theorem accessesOutsideTheProtocolAreRefused : Obligations.AccessesOutsideTheProtocolAreRefused := by
  intro s rest off w b n
  dsimp only
  refine ⟨fun hres e he hev => ?_, fun hlow e he hev => ?_, fun hlow hmod e he hev => ?_, fun hbuf e he hev => ?_⟩ <;>
    simp only [List.mem_cons, List.not_mem_nil, or_false] at he
  · have hregion := regionOfAddr_reserved s.cfg hres
    rw [← refuseAccess_of_reserved s.cfg hregion]
    rcases he with he | he | he | he | rfl
    · exact step_access32_refused (w := w) (by simp [hregion]) (.inl he) hev
    · exact step_access32_refused (w := w) (by simp [hregion]) (.inr he) hev
    · exact step_access8_refused (b := b) (by simp [hregion]) (by simp [hregion]) (.inl he) hev
    · exact step_access8_refused (b := b) (by simp [hregion]) (by simp [hregion]) (.inr he) hev
    · exact step_otherWidth hev
  · rw [← refuseAccess_low s.cfg hlow]
    have hno : (∀ x, regionOfAddr s.cfg.p (s.cfg.p.hostBase + off) ≠ .inByte x) ∧
        ∀ x, regionOfAddr s.cfg.p (s.cfg.p.hostBase + off) ≠ .outByte x := by
      rcases regionOfAddr_low s.cfg hlow with ⟨-, r, hr⟩ | ⟨-, hr⟩ <;> simp [hr]
    rcases he with he | he | rfl
    · exact step_access8_refused (b := b) hno.1 hno.2 (.inl he) hev
    · exact step_access8_refused (b := b) hno.1 hno.2 (.inr he) hev
    · exact step_otherWidth hev
  · rw [← refuseAccess_low s.cfg hlow]
    rcases regionOfAddr_low s.cfg hlow with ⟨hzero, -⟩ | ⟨-, hr⟩
    · exact absurd hzero hmod
    · exact step_access32_refused (w := w) (by simp [hr]) he hev
  · rw [← refuseAccess_buffer s.cfg hbuf]
    have hno : ∀ r, regionOfAddr s.cfg.p (s.cfg.p.hostBase + off) ≠ .register r := by
      rcases regionOfAddr_buffer s.cfg hbuf with ⟨x, hx⟩ | ⟨x, hx⟩ <;> simp [hx]
    rcases he with he | he | rfl
    · exact step_access32_refused (w := w) hno (.inl he) hev
    · exact step_access32_refused (w := w) hno (.inr he) hev
    · exact step_otherWidth hev

/-! ### Register reads and the command write (10_state.md R29) -/

/-- A 32-bit read at a register's address returns the register's word (20_memory.md R67). -/
theorem step_read_register {s : State} {rest : List Event} (r : Reg)
    (h : s.events = .rd32 (s.cfg.p.hostBase + regOffset r) :: rest) :
    step s = .next { s with events := rest, reads := s.reads ++ [.word (regRead s r)] } := by
  rw [step_cons h]
  simp only [handleEvent, hostRead32, regionOfAddr_eq_register.2 rfl]
  cases r <;> rfl

/-- Settles O13: the nine registers by their offsets, the buffer bytes by their windows. -/
theorem hostReadsReturnAndChangeNothing : Obligations.HostReadsReturnAndChangeNothing := by
  intro s rest
  refine ⟨fun x hx h => ?_, fun a ha => step_read_in ha, fun a ha => step_read_out ha⟩
  have hoffset : x.1 = regOffset x.2 := by
    simp only [List.mem_cons, List.not_mem_nil, or_false] at hx
    rcases hx with rfl | rfl | rfl | rfl | rfl | rfl | rfl | rfl | rfl <;> rfl
  rw [hoffset] at h
  exact step_read_register x.2 h

/-- Settles O6: a write to CMD runs the word, which decodes to the command. -/
theorem stepRunsTheCommandWritten : Obligations.StepRunsTheCommandWritten := by
  intro s w rest i hev hd
  rw [step_commandWrite hev]
  simp only [runCommand, hd]

/-- Settles O11: each word by its number; the 16-bit fields are zero-extended. -/
theorem registerWordsAreMadeOfTheirFields : Obligations.RegisterWordsAreMadeOfTheirFields := by
  intro s
  have hhalf : ∀ x : Half, (x.setWidth 32).toNat = x.toNat := fun x => BitVec.toNat_setWidth_of_le (by decide)
  refine ⟨?_, errInfoWord_toNat s, srcCtrlWord_toNat s, hhalf _, hhalf _, hhalf _, rfl, rfl, rfl⟩
  rw [regRead, statusWord_toNat]
  cases s.err <;> rfl

/-! ### The record layout (20_memory.md R61 to R64) -/

/-- Settles O56: every byte of a record lies in a region, every region inside the record, and the windows do not meet. -/
theorem regionsTileTheRecord : Obligations.RegionsTileTheRecord := by
  intro cfg fmt
  refine ⟨fun a => ⟨record_byte_cases, ?_⟩, fun v o => ?_, fun u v i j => window_disjoint, fun c => ?_⟩
  · rintro (hhdr | ⟨v, o, ho, rfl⟩)
    · unfold total
      omega
    · have := window_end_le_total cfg.p v fmt
      omega
  · unfold vbase
    omega
  · have := ctrlOff_range cfg c
    omega

/-- Settles O57: HDR_LEN_F2 != HDR_LEN_F1 - 2 keeps the totals apart, and the capacities are at least the longer record. -/
theorem legalParametersTellTheFormatsApart : Obligations.LegalParametersTellTheFormatsApart := by
  intro cfg
  refine ⟨fun heq => ?_, rfl, rfl, fun fmt => ⟨total_le_inCap cfg fmt, total_le_outCap cfg fmt⟩, fun _ => ⟨rfl, rfl, rfl⟩,
    rfl, rfl⟩
  exact absurd (total_injective cfg heq) (by decide)

/-! ### DETECT and LOAD (40_format_detector.md R125, R127, 42_kit_codec.md R171) -/

theorem detectInput_of_markers {s : State} {fmt : Format} (hsrc : s.srcErr = false)
    (hlen : s.inLen.toNat = total s.cfg.p fmt) (hmarkers : ∀ v, MarkerAt s.cfg.p s.inBuf fmt v) :
    detectInput s = .ok fmt :=
  (detectInput_eq_ok s fmt).2 ⟨hsrc, hlen, fun v => (markerAt_iff _ _ _ v).1 (hmarkers v)⟩

theorem exec_detect_of_ok {s : State} {fmt : Format} (h : detectInput s = .ok fmt) :
    exec .detect s = .next (State.completed { s with result := formatCode fmt }) := by
  simp only [exec, execDetect, h]
  rfl

/-- Settles O19: the input passes both stages of detection. -/
theorem detectCompletes : Obligations.DetectCompletes := by
  intro s fmt hsrc hlen hmarkers
  rw [exec_detect_of_ok (detectInput_of_markers hsrc hlen hmarkers)]
  cases fmt <;> rfl

/-- Settles O24: both commands end as detection ends, in its error or with the code of its format. -/
theorem detectAndLoadAgree : Obligations.DetectAndLoadAgree := by
  intro s
  cases hd : detectInput s with
  | error e =>
    exact ⟨_, _, exec_detect_of_error hd, exec_load_of_error hd, .inl ⟨errorCode_ne_ok e, rfl⟩⟩
  | ok fmt =>
    exact ⟨_, _, exec_detect_of_ok hd, exec_load_of_ok hd, .inr ⟨rfl, rfl, rfl, by cases fmt <;> rfl⟩⟩

/-- Settles O25: the input passes detection, and the images LOAD stages are the header and the windows of IN. -/
theorem loadReplacesTheKit : Obligations.LoadReplacesTheKit := by
  intro s fmt hsrc hlen hmarkers
  refine ⟨_, exec_load_of_ok (detectInput_of_markers hsrc hlen hmarkers), ?_, fun i _ => loaded_hs fmt s i,
    fun v o ho => loaded_vs fmt s v o ho⟩
  cases fmt <;> rfl

/-- Byte `k` of a marker that stands (20_memory.md R64). -/
theorem markerAt_read {p : Params} {buf : Memory} {fmt : Format} {v : Voice} (h : MarkerAt p buf fmt v) {k : Nat}
    (hk : k < 4) :
    Memory.read buf (vbase p v fmt + 4 + k) = marker.getD k 0 :=
  (markerOK_foundMarker_iff p buf v fmt).1 ((markerAt_iff p buf fmt v).1 h) k hk

/-- A write at a marker position of one voice leaves the marker of every other. -/
theorem markerAt_write_other {p : Params} {buf : Memory} {fmt : Format} {u v : Voice} {k : Nat} (hk : k < 4) (huv : u ≠ v)
    (b : Byte) (h : MarkerAt p buf fmt u) : MarkerAt p (Memory.write buf (vbase p v fmt + 4 + k) b) fmt u := by
  have hu := vlen_range u fmt
  have hv := vlen_range v fmt
  rw [markerAt_iff, markerOK_foundMarker_iff]
  intro j hj
  rw [read_write_ne, markerAt_read h hj]
  intro heq
  rw [Nat.add_assoc, Nat.add_assoc] at heq
  exact huv (window_disjoint (by omega) (by omega) heq).1

/-- A standing marker is gone once one of its bytes is changed. -/
theorem not_markerAt_write {p : Params} {buf : Memory} {fmt : Format} {v : Voice} {k : Nat} {b : Byte} (hk : k < 4)
    (hb : b ≠ Memory.read buf (vbase p v fmt + 4 + k)) (h : MarkerAt p buf fmt v) :
    ¬ MarkerAt p (Memory.write buf (vbase p v fmt + 4 + k) b) fmt v := by
  intro hm
  have hchanged := markerAt_read hm hk
  rw [read_write_same] at hchanged
  exact hb (hchanged.trans (markerAt_read h hk).symm)

/-- Settles O23: DETECT completed, so all four markers stood; the changed one is then the only one, and so the lowest, that
fails. -/
theorem changedMarkerByteIsDetected : Obligations.ChangedMarkerByteIsDetected := by
  intro s t fmt v k b h hok hlen hk hb m
  rcases execDetect_eq s with ⟨e, -, herror⟩ | ⟨f, hd, -⟩
  · obtain rfl := next_unique herror h
    exact absurd hok (errorCode_ne_ok e)
  · obtain ⟨hsrc, hf, hgood⟩ := (detectInput_eq_ok s f).1 hd
    obtain rfl := total_injective s.cfg (hf.symm.trans hlen)
    have hmarkers := fun u => (markerAt_iff s.cfg.p s.inBuf f u).2 (hgood u)
    have hbad : ¬ MarkerAt s.cfg.p m f v := not_markerAt_write hk hb (hmarkers v)
    refine (lowestBadMarkerIsReported { s with inBuf := m } f v hsrc hlen hbad fun u hu => ?_).2
    exact markerAt_write_other hk (fun heq => by simp [heq] at hu) b (hmarkers u)

/-! ### GET and SET (41_voice_codec.md R150, R152) -/

/-- Settles O28: a named control with a kit held is GET's completing case. -/
theorem getReturnsTheControlByte : Obligations.GetReturnsTheControlByte := by
  intro s v c hkit
  rw [BitVec.ofNat_toNat]
  exact exec_get_completes (controlOfCode_controlCode c) hkit

theorem controlOfCode_eq_none {c : BitVec 4} (h : 11 ≤ c.toNat) : controlOfCode c = none := by
  rw [← Option.not_isSome_iff_eq_none, controlOfCode_isSome]
  omega

/-- Settles O31: the identifier names no control, which both commands test first. -/
theorem unnamedControlIsAnIllegalCommand : Obligations.UnnamedControlIsAnIllegalCommand := by
  intro s v c imm hc
  exact ⟨exec_get_of_unnamed (controlOfCode_eq_none hc), exec_set_of_unnamed (controlOfCode_eq_none hc)⟩

/-- Every control's range lies in a byte (10_state.md R22). -/
theorem inRange_byte {c : Control} {val : Int} (h : InRange c val) : 0 ≤ val ∧ val ≤ 255 := by
  obtain ⟨hlo, hhi⟩ := h
  refine ⟨hlo, hhi.trans ?_⟩
  split <;> decide

/-- A value in range is its own low byte: SET drops no bit of it (41_voice_codec.md R152). -/
theorem immByte_toNat {c : Control} {imm : Half} (h : InRange c imm.toInt) :
    (immByte imm).toNat = imm.toNat ∧ (imm.toNat : Int) = imm.toInt := by
  have hbyte := inRange_byte h
  have hlt := imm.isLt
  have hint : imm.toInt = imm.toNat := by
    rw [BitVec.toInt_eq_toNat_cond] at hbyte ⊢
    split <;> omega
  rw [immByte_eq_ofNat, BitVec.toNat_ofNat]
  omega

theorem controlSet_vs (v : Voice) (c : Control) (imm : Half) (s : State) (a : Nat) :
    Memory.read (State.controlSet v c imm s).vs a
      = if a = vsAddr v (ctrlOff s.cfg.p c) then immByte imm else Memory.read s.vs a :=
  read_write _ _ _ _

/-- Settles O29: SET's completing case writes the low byte of a value that is that byte. -/
theorem setWritesOneControlByte : Obligations.SetWritesOneControlByte := by
  intro s v c imm hkit hr
  have hset := exec_set_completes (v := v) (controlOfCode_controlCode c) hkit ((rangeTableIsTheSpecs c (immValue imm)).2 hr)
  refine ⟨_, hset, rfl, ?_, fun a ha => ?_⟩
  · obtain ⟨hnat, hint⟩ := immByte_toNat hr
    rw [controlSet_vs, if_pos rfl, hnat, hint]
  · rw [controlSet_vs, if_neg ha]

/-- A SET of a named control that ends with OK had a kit and a value in range. -/
theorem exec_set_ok {v : Voice} {c : Control} {imm : Half} {s t : State}
    (h : exec (.set v (controlCode c) imm) s = .next t) (hok : t.err = .ok) :
    s.kitValid = true ∧ InRange c imm.toInt ∧ t = State.controlSet v c imm s := by
  cases hkit : s.kitValid with
  | false =>
    obtain rfl := next_unique (exec_set_of_noKit (controlOfCode_controlCode c) hkit) h
    exact absurd hok (errorCode_ne_ok .noKit)
  | true =>
    rcases exec_set_cases hkit v c imm with ⟨hr, hset⟩ | ⟨-, hset⟩
    · exact ⟨rfl, hr, next_unique hset h⟩
    · obtain rfl := next_unique hset h
      exact absurd hok (errorCode_ne_ok (.outOfRange v (controlCode c) imm))

/-- Two controls have the same key in the voice store only if they are the same control of the same voice. -/
theorem vsAddr_ctrlOff_inj (cfg : Config) {u v : Voice} {c d : Control} :
    vsAddr u (ctrlOff cfg.p d) = vsAddr v (ctrlOff cfg.p c) ↔ u = v ∧ d = c := by
  have hc := ctrlOff_lt cfg c
  have hd := ctrlOff_lt cfg d
  constructor
  · intro h
    obtain ⟨hvoice, hoff⟩ := vsAddr_injective (by omega) (by omega) h
    exact ⟨hvoice, ctrlOff_injective cfg hoff⟩
  · rintro ⟨rfl, rfl⟩
    rfl

/-- Settles O35: the SET wrote one byte, which GET finds under its own voice and control and under no other. -/
theorem getAfterSetReadsItBack : Obligations.GetAfterSetReadsItBack := by
  intro s t v u c d imm h hok
  obtain ⟨hkit, hr, rfl⟩ := exec_set_ok h hok
  have hbyte : Memory.read (State.controlSet v c imm s).vs (vsAddr u (ctrlOff s.cfg.p d))
      = if u = v ∧ d = c then immByte imm else Memory.read s.vs (vsAddr u (ctrlOff s.cfg.p d)) := by
    rw [controlSet_vs]
    simp only [vsAddr_ctrlOff_inj]
  refine (getReturnsTheControlByte (State.controlSet v c imm s) u d hkit).trans ?_
  rw [show (State.controlSet v c imm s).cfg = s.cfg from rfl, hbyte, apply_ite BitVec.toNat, apply_ite (BitVec.ofNat 32),
    (immByte_toNat hr).1]

/-! ### SAVE (42_kit_codec.md R175, R180) -/

theorem saveCheck_of_no_badControl {s : State} (h : ∀ v c, ¬ BadControl s v c) : saveCheck s = none :=
  (saveCheck_eq_none s).2 fun v c => (rangeTableIsTheSpecs _ _).2 (not_not.1 (h v c))

theorem saved_result (s : State) : (State.saved s).result.toNat = total s.cfg.p s.format := by
  have := total_le_256 s.cfg s.format
  rw [State.saved, completed_result, BitVec.toNat_ofNat]
  omega

/-- Settles O38: no control out of range is SAVE's completing case, and the record it writes is the kit's, region by
region. -/
theorem saveWritesTheRecord : Obligations.SaveWritesTheRecord := by
  intro s hkit hgood
  refine ⟨_, exec_save_completes hkit (saveCheck_of_no_badControl hgood), rfl, saved_outLen s, saved_result s,
    fun i => saved_outBuf_header s, markerAt_saved s, fun v o ho hno => ?_, fun a => saved_outBuf_of_total_le s⟩
  rw [saved_outBuf_window s v ho, if_neg (by omega)]

/-- A held record with a toggle above 2 does not pass SAVE's range check. -/
theorem HoldsRecord.exists_saveCheck {cfg : Config} {fmt : Format} {buf : Memory} {s : State}
    (h : HoldsRecord cfg fmt buf s) (hbad : ¬ TogglesInRange cfg.p buf fmt) : ∃ e, saveCheck s = some e := by
  refine Option.ne_none_iff_exists'.1 fun hnone => hbad fun v c htoggle => ?_
  have hrange := (rangeOK_byte c _).1 ((Laws.saveCheck_eq_none s).1 hnone v c) ((controlKind_eq_toggle c).2 htoggle)
  rwa [h.controlByte_eq] at hrange

/-- A stored byte that fails the range check is a toggle above 2. -/
theorem toggle_of_rangeOK_eq_false {c : Control} {b : Byte} (h : rangeOK c (b.toNat : Int) = false) :
    (c = .algo ∨ c = .mode ∨ c = .vcf) ∧ 2 < b.toNat := by
  have hbad := mt (rangeOK_byte c b).2 (by simp [h])
  rw [Classical.not_imp, controlKind_eq_toggle, Nat.not_le] at hbad
  exact hbad

/-- Settles O49: the run keeps the record LOAD made the kit; SAVE's check reports its first control out of range, which is a
toggle. -/
theorem unrepairedToggleBlocksSave : Obligations.UnrepairedToggleBlocksSave := by
  intro s t u fmt k hload hok hlen hbad hleaves hrun
  have hheld := (holdsRecord_of_load hload hok hlen).of_sameKit (run_sameKit_of_leavesKit hleaves hrun)
  obtain ⟨e, hcheck⟩ := hheld.exists_saveCheck hbad
  have hsave := exec_save_of_saveCheck hheld.valid hcheck
  obtain ⟨v, c, hc, hvoices, hcontrols, rfl⟩ := (saveCheck_eq_some u e).1 hcheck
  obtain ⟨htoggle, habove⟩ := toggle_of_rangeOK_eq_false hc
  refine ⟨v, c, _, htoggle, (hheld.controlByte_eq v c), habove, fun x d hd hbefore => ?_, ?_⟩
  · have hrange : rangeOK d ((controlByte u x d).toNat : Int) = true := by
      rcases hbefore with hx | ⟨rfl, hdc⟩
      · exact hvoices x d hx
      · exact hcontrols d hdc
    rw [← hheld.controlByte_eq]
    exact (rangeOK_byte d _).1 hrange ((controlKind_eq_toggle d).2 hd)
  · rw [BitVec.ofNat_toNat]
    exact hsave

/-! ### The store bytes no command reads (10_state.md R23, R24) -/

/-- The stores `vs'` and `hs'` agree with the held kit of `s` within its windows and its header. -/
def AgreeOnHeldKit (s : State) (vs' hs' : Memory) : Prop :=
  s.kitValid = true →
    (∀ (v : Voice) (o : Nat), o < vlen v s.format → Memory.read vs' (vsAddr v o) = Memory.read s.vs (vsAddr v o)) ∧
    (∀ k, k < hdrLen s.cfg.p s.format → Memory.read hs' k = Memory.read s.hs k)

/-- `i` answers, with the stores exchanged, the state `t` up to stores that agree with `t`'s held kit. -/
def AnswersUpToStores (i : Instr) (s t : State) (vs' hs' : Memory) : Prop :=
  ∃ vs'' hs'', exec i { s with vs := vs', hs := hs' } = .next { t with vs := vs'', hs := hs'' } ∧
    AgreeOnHeldKit t vs'' hs''

/-- SAVE's check looks at the controls alone. -/
theorem saveCheck_congr {s t : State} (h : ∀ v c, controlByte t v c = controlByte s v c) : saveCheck t = saveCheck s := by
  refine Option.ext fun e => ?_
  simp only [saveCheck_eq_some, h]

section
variable {s : State} {vs' hs' : Memory}

theorem agreeOnHeldKit_self (s : State) : AgreeOnHeldKit s s.vs s.hs := fun _ => ⟨fun _ _ _ => rfl, fun _ _ => rfl⟩

/-- Every control lies in its voice's window. -/
theorem controlByte_congr (h : AgreeOnHeldKit s vs' hs') (hkit : s.kitValid = true) (v : Voice) (c : Control) :
    controlByte { s with vs := vs', hs := hs' } v c = controlByte s v c := by
  have hoff := ctrlOff_lt s.cfg c
  have hlen := vlen_range v s.format
  obtain ⟨hwindow, -⟩ := h hkit
  exact hwindow v (ctrlOff s.cfg.p c) (by omega)

/-- The record takes the windows and the header of the stores and nothing else (41_voice_codec.md R146). -/
theorem encodeKit_congr (h : AgreeOnHeldKit s vs' hs') (hkit : s.kitValid = true) :
    encodeKit { s with vs := vs', hs := hs' } = encodeKit s := by
  obtain ⟨hwindow, hheader⟩ := h hkit
  have hhdr : Memory.readBytes hs' 0 (hdrLen s.cfg.p s.format) = Memory.readBytes s.hs 0 (hdrLen s.cfg.p s.format) :=
    readBytes_congr fun k hk => by simpa using hheader k hk
  have hvoice : ∀ v, voiceEncode (voiceImage { s with vs := vs', hs := hs' } v) v s.format
      = voiceEncode (voiceImage s v) v s.format := fun v => by
    refine List.map_congr_left fun o ho => ite_congr rfl (fun _ => rfl) fun _ => ?_
    have hlt := List.mem_range.1 ho
    have hlen := vlen_range v s.format
    rw [getD_voiceImage _ _ _ (by omega), getD_voiceImage _ _ _ (by omega)]
    exact hwindow v o hlt
  simp only [encodeKit, hhdr, hvoice]

/-- What SAVE leaves is the same but for the stores, which it leaves as they are. -/
theorem saved_withStores (h : AgreeOnHeldKit s vs' hs') (hkit : s.kitValid = true) :
    State.saved { s with vs := vs', hs := hs' } = { State.saved s with vs := vs', hs := hs' } := by
  simp only [State.saved, encodeKit_congr h hkit]
  rfl

/-- Writing the same byte to both stores keeps their agreement. -/
theorem agreeOnHeldKit_controlSet (h : AgreeOnHeldKit s vs' hs') (v : Voice) (c : Control) (imm : Half) :
    AgreeOnHeldKit (State.controlSet v c imm s) (Memory.write vs' (vsAddr v (ctrlOff s.cfg.p c)) (immByte imm)) hs' := by
  intro hkit
  obtain ⟨hwindow, hheader⟩ := h hkit
  refine ⟨fun u o ho => ?_, hheader⟩
  rw [read_write, controlSet_vs, hwindow u o ho]

/-- A way a command ends that leaves the stores and the kit answers the same with the stores exchanged. -/
theorem answersUpToStores_of_sameKit {i : Instr} {t : State} (h : AgreeOnHeldKit s vs' hs') (hsame : SameKit s t)
    (hx : exec i { s with vs := vs', hs := hs' } = .next { t with vs := vs', hs := hs' }) :
    AnswersUpToStores i s t vs' hs' := by
  refine ⟨vs', hs', hx, ?_⟩
  obtain ⟨hcfg, hvalid, hformat, hhs, hvs⟩ := hsame
  rw [AgreeOnHeldKit, hcfg, hvalid, hformat, hhs, hvs]
  exact h

theorem exec_answersUpToStores {i : Instr} {t : State} (h : AgreeOnHeldKit s vs' hs') (hx : exec i s = .next t) :
    AnswersUpToStores i s t vs' hs' := by
  have hraised : ∀ {e}, exec i { s with vs := vs', hs := hs' } = .next (State.raised e { s with vs := vs', hs := hs' }) →
      AnswersUpToStores i s (State.raised e s) vs' hs' := fun he => answersUpToStores_of_sameKit h (sameKit_raised _ s) he
  cases i with
  | detect =>
    rcases execDetect_eq s with ⟨e, hd, he⟩ | ⟨fmt, hd, he⟩ <;> obtain rfl := next_unique he hx
    · exact hraised (exec_detect_of_error hd)
    · exact answersUpToStores_of_sameKit h (sameKit_completed_result _ s) (exec_detect_of_ok hd)
  | load =>
    rcases execLoad_eq s with ⟨e, hd, he⟩ | ⟨fmt, hd, he⟩ <;> obtain rfl := next_unique he hx
    · exact hraised (exec_load_of_error hd)
    · exact ⟨_, _, exec_load_of_ok hd, agreeOnHeldKit_self _⟩
  | save =>
    rcases execSave_eq s with ⟨hkit, he⟩ | ⟨e, hkit, hcheck, he⟩ | ⟨hkit, hcheck, he⟩ <;> obtain rfl := next_unique he hx
    · exact hraised (exec_save_of_noKit hkit)
    · exact hraised (exec_save_of_saveCheck hkit ((saveCheck_congr (controlByte_congr h hkit)).trans hcheck))
    · refine answersUpToStores_of_sameKit h (sameKit_saved s) ?_
      rw [← saved_withStores h hkit]
      exact exec_save_completes hkit ((saveCheck_congr (controlByte_congr h hkit)).trans hcheck)
  | get v c =>
    rcases execGet_eq v c s with ⟨hc, he⟩ | ⟨ctl, hc, hkit, he⟩ | ⟨ctl, hc, hkit, he⟩ <;> obtain rfl := next_unique he hx
    · exact hraised (exec_get_of_unnamed hc)
    · exact hraised (exec_get_of_noKit hc hkit)
    · refine answersUpToStores_of_sameKit h (sameKit_completed_result _ s) ?_
      rw [exec_get_completes (s := { s with vs := vs', hs := hs' }) hc hkit, controlByte_congr h hkit]
      rfl
  | set v c imm =>
    rcases execSet_eq v c imm s with ⟨hc, he⟩ | ⟨ctl, hc, hkit, he⟩ | ⟨ctl, hc, hkit, hr, he⟩ | ⟨ctl, hc, hkit, hr, he⟩ <;>
      obtain rfl := next_unique he hx
    · exact hraised (exec_set_of_unnamed hc)
    · exact hraised (exec_set_of_noKit hc hkit)
    · exact hraised (exec_set_of_outOfRange hc hkit hr)
    · exact ⟨_, _, exec_set_completes hc hkit hr, agreeOnHeldKit_controlSet h v ctl imm⟩

end

/-- Settles O47: each way a command ends rests on the controls, the record and the input alone; LOAD writes both stores
anew, and SET writes one byte in either. -/
theorem unheldStoreBytesAreNeverRead : Obligations.UnheldStoreBytesAreNeverRead :=
  fun _ _ _ _ _ h hx => exec_answersUpToStores h hx

/-! ### Who changes KIT_VALID and FORMAT (10_state.md R25, 42_kit_codec.md R172) -/

/-- A step keeps KIT_VALID and FORMAT, or completes a LOAD, or resets the block. The word of LOAD is the one that decodes
to it. -/
theorem step_kitValid_format_cases {s t : State} (h : step s = .next t) :
    (t.kitValid = s.kitValid ∧ t.format = s.format) ∨
    (∃ rest, s.events = commandWrite s.cfg.p 2 :: rest ∧ t.err = .ok ∧ t.kitValid = true) ∨
    (∃ d rest, s.events = .reset d :: rest) := by
  rcases step_kit_cases h with ⟨-, hvalid, hformat, -, -⟩ | ⟨w, i, rest, hev, hd, hx⟩ | ⟨d, rest, hev, -⟩
  · exact .inl ⟨hvalid, hformat⟩
  · rcases exec_kit_cases hx with ⟨-, hvalid, hformat, -, -⟩ | ⟨fmt, rfl, -, rfl⟩ | ⟨v, c, ctl, imm, -, -, -, -, rfl⟩
    · exact .inl ⟨hvalid, hformat⟩
    · obtain ⟨-, rfl⟩ := wellFormed_and_encode_of_decode hd
      exact .inr (.inl ⟨rest, hev, rfl, rfl⟩)
    · exact .inl ⟨rfl, rfl⟩
  · exact .inr (.inr ⟨d, rest, hev⟩)

/-- Settles O37: of the steps that do not keep both, a completed LOAD leaves KIT_VALID = 1. -/
theorem kitValidAndFormatChangeOnlyByLoadOrReset : Obligations.KitValidAndFormatChangeOnlyByLoadOrReset := by
  intro s t e rest hev h
  rcases step_kitValid_format_cases h with ⟨hvalid, hformat⟩ | ⟨rest', hev', hok, hvalid⟩ | ⟨d, rest', hev'⟩
  · refine ⟨fun hchange => ?_, fun hheld hclear => ?_⟩
    · simp [hvalid, hformat] at hchange
    · simp [hvalid, hheld] at hclear
  · obtain ⟨rfl, -⟩ := List.cons.inj (hev.symm.trans hev')
    exact ⟨fun _ => .inr ⟨rfl, hok, hvalid⟩, fun _ hclear => by simp [hvalid] at hclear⟩
  · obtain ⟨rfl, -⟩ := List.cons.inj (hev.symm.trans hev')
    exact ⟨fun _ => .inl ⟨d, rfl⟩, fun _ _ => ⟨d, rfl⟩⟩

/-! ### The stores stay canonical (20_memory.md R60, R69) -/

/-- What a command does to the stores of the kit keeps them canonical and within their sizes. -/
theorem exec_keeps_kitStores {i : Instr} {s t : State} (hvs : Memory.wf 128 s.vs = true) (hhs : Memory.wf 59 s.hs = true)
    (h : exec i s = .next t) : Memory.wf 128 t.vs = true ∧ Memory.wf 59 t.hs = true := by
  rcases exec_kit_cases h with ⟨-, -, -, hhs', hvs'⟩ | ⟨fmt, -, -, rfl⟩ | ⟨v, -, ctl, imm, -, -, -, -, rfl⟩
  · exact ⟨hvs' ▸ hvs, hhs' ▸ hhs⟩
  · exact ⟨wf_ofBytes (by simp [allVoices]), wf_ofBytes (by simp)⟩
  · have hoff := ctrlOff_lt s.cfg ctl
    exact ⟨wf_write hvs (vsAddr_lt (by omega)), hhs⟩

/-- SAVE writes OUT inside its capacity, which holds either record (20_memory.md R63). -/
theorem exec_keeps_outBuf_wf {i : Instr} {s t : State} (hout : Memory.wf s.cfg.p.outCap s.outBuf = true)
    (h : exec i s = .next t) : Memory.wf s.cfg.p.outCap t.outBuf = true := by
  rcases exec_output_cases h with ⟨hbuf, -⟩ | ⟨-, -, rfl⟩
  · exact hbuf ▸ hout
  · have hcap := total_le_outCap s.cfg s.format
    exact wf_writeBytes hout (by simpa using hcap)

theorem exec_keeps_storesCanonical {i : Instr} {s t : State} (hs : StoresCanonical s) (h : exec i s = .next t) :
    StoresCanonical t := by
  obtain ⟨hin, hout, hvs, hhs⟩ := hs
  rw [StoresCanonical, exec_cfg h, exec_inBuf h]
  exact ⟨hin, exec_keeps_outBuf_wf hout h, exec_keeps_kitStores hvs hhs h⟩

/-- Reset drops the bytes beyond a store's size (log 5). -/
theorem storesCanonical_afterReset (d : PowerUp) (s : State) : StoresCanonical (State.afterReset d s) :=
  ⟨wf_ofBytes (List.length_take_le _ _), wf_ofBytes (List.length_take_le _ _), wf_ofBytes (List.length_take_le _ _),
    wf_ofBytes (List.length_take_le _ _)⟩

/-- Settles O51: commands write the stores inside their sizes, the host writes IN inside its capacity, and reset fills the
stores up to theirs. -/
theorem stepKeepsStoresCanonical : Obligations.StepKeepsStoresCanonical := by
  intro s t hs h
  rcases step_cases h with ⟨w, i, rest, -, -, hx⟩ | ⟨w, rest, rfl⟩ | ⟨evs, len, src, m, rs, hm, rfl⟩ | ⟨d, rest, -, rfl⟩
  · exact exec_keeps_storesCanonical (s := { s with events := rest, cmd := w }) hs hx
  · exact hs
  · obtain ⟨hin, hrest⟩ := hs
    rcases hm with rfl | ⟨a, b, ha, rfl⟩
    · exact ⟨hin, hrest⟩
    · exact ⟨wf_write hin ha, hrest⟩
  · exact storesCanonical_afterReset d _

/-! ### The zero tails (41_voice_codec.md R142, 42_kit_codec.md R171) -/

/-- The condition rests on the kit alone. -/
theorem tailsZero_of_sameKit {s t : State} (h : SameKit s t) (hs : TailsZero s) : TailsZero t := by
  obtain ⟨hcfg, hvalid, hformat, hhs, hvs⟩ := h
  rw [TailsZero, hcfg, hvalid, hformat, hhs, hvs]
  exact hs

/-- LOAD fills both stores with 0 above the record's windows and header. -/
theorem tailsZero_loaded (fmt : Format) (s : State) : TailsZero (State.loaded fmt s) := by
  refine fun _ => ⟨fun v o hlen ho => ?_, fun i hi _ => ?_⟩
  · rw [loaded_vs fmt s v o ho]
    exact if_neg (Nat.not_lt.2 hlen)
  · rw [loaded_hs]
    exact if_neg (Nat.not_lt.2 hi)

/-- A SET writes inside the window: every CTRL_OFF is below 26 (00_scope.md R9). -/
theorem tailsZero_controlSet {s : State} (hs : TailsZero s) (v : Voice) (c : Control) (imm : Half) :
    TailsZero (State.controlSet v c imm s) := by
  intro hvalid
  obtain ⟨hvs, hhs⟩ := hs hvalid
  refine ⟨fun u o hlen ho => ?_, hhs⟩
  have hoff := ctrlOff_lt s.cfg c
  have hwindow := vlen_range u s.format
  rw [controlSet_vs, if_neg, hvs u o hlen ho]
  intro heq
  obtain ⟨-, rfl⟩ := vsAddr_injective ho (by omega) heq
  exact absurd (hwindow.1.trans hlen) (by omega)

theorem exec_keeps_tailsZero {i : Instr} {s t : State} (hs : TailsZero s) (h : exec i s = .next t) : TailsZero t := by
  rcases exec_kit_cases h with hsame | ⟨fmt, -, -, rfl⟩ | ⟨v, -, ctl, imm, -, -, -, -, rfl⟩
  · exact tailsZero_of_sameKit hsame hs
  · exact tailsZero_loaded fmt s
  · exact tailsZero_controlSet hs v ctl imm

/-- Settles O53: of the events, only a LOAD, a SET and a reset touch the kit; LOAD fills the tails with 0, SET writes below
them, and reset leaves no kit held. -/
theorem stepKeepsTailsZero : Obligations.StepKeepsTailsZero := by
  intro s t hs h
  rcases step_kit_cases h with hsame | ⟨w, i, rest, -, -, hx⟩ | ⟨d, rest, -, rfl⟩
  · exact tailsZero_of_sameKit hsame hs
  · exact exec_keeps_tailsZero (s := { s with events := rest, cmd := w }) hs hx
  · exact fun hvalid => absurd hvalid (by simp)

/-! ### The diagnostics (10_state.md R35 to R37) -/

/-- Settles O54: a command leaves matching diagnostics, an illegal word those of its code, a reset none, and the host's
accesses write no ERR_* register. -/
theorem stepKeepsDiagnosticsMatched : Obligations.StepKeepsDiagnosticsMatched := by
  intro s t hs h
  rcases step_cases h with ⟨w, i, rest, -, -, hx⟩ | ⟨w, rest, rfl⟩ | ⟨evs, len, src, m, rs, -, rfl⟩ | ⟨d, rest, -, rfl⟩
  · exact (errorsArePrecise i _ t hx).1
  · exact (diagnosticsMatch_raised .illegalCommand _).2 trivial
  · exact hs
  · simp [DiagnosticsMatch]

/-! ### Reset (10_state.md R41, 70_reset_and_hazards.md R230, R232) -/

/-- Settles O17: the registers by their fields, the parameters by evaluation, and idling because no event waits. -/
theorem resetStateIsEmptyAndIdle : Obligations.ResetStateIsEmptyAndIdle :=
  ⟨fun r => by cases r <;> rfl, rfl, rfl, rfl, rfl, rfl, rfl, rfl, rfl, rfl, step_nil rfl⟩

/-- Settles O18: the stores list nothing, no kit is held, STATUS.ERR is OK and OUT_LEN is 0. -/
theorem conditionsHoldAtReset : Obligations.ConditionsHoldAtReset := by
  refine ⟨⟨wf_nil _, wf_nil _, wf_nil _, wf_nil _⟩, fun hvalid => ?_, fun hvalid => ?_, ?_, .inl rfl⟩
  · cases hvalid
  · cases hvalid
  · exact diagnosticsMatch_completed State.reset

/-- The state after a reset is made of the event, the parameters, the waiting events and the values read. -/
theorem afterReset_congr (d : PowerUp) {s s' : State} (hcfg : s'.cfg = s.cfg) :
    State.afterReset d s' = { State.afterReset d s with events := s'.events, reads := s'.reads } := by
  simp only [State.afterReset, hcfg]

/-- Settles O58: both steps leave the state after the reset, which takes from the state before it nothing else. -/
theorem resetForgetsAllButParametersAndTheRunsRecord : Obligations.ResetForgetsAllButParametersAndTheRunsRecord := by
  intro s s' d rest rest' hcfg hev hev'
  refine ⟨_, step_reset hev, rfl, rfl, rfl, ?_⟩
  rw [step_reset hev', afterReset_congr d (s := { s with events := rest }) (s' := { s' with events := rest' }) hcfg]

end Sys2Proof.Proofs
